-- ==== Sys2Proof/Word.lean ====
section
/-! DEFINITION. The core's data words: bytes and byte lists (00_scope.md R8, R9). -/

namespace Sys2Proof

/-- A byte, an unsigned 8-bit value with bit 0 least significant (R8). -/
abbrev Byte := BitVec 8

/-- A byte list, index 0 first on the wire or first in the buffer (R9, R40). -/
abbrev Bytes := List Byte

end Sys2Proof
end

