-- ==== Sys2Proof/Syntax.lean ====
section
/-! DEFINITION. The instructions: one constructor for each of the 47 rows of opcode_table.json, in the table's order, and the
messages that carry them. -/

namespace Sys2Proof

/-- The four formats of opcode_table.json (30_encoding.md): each is a decode table of its own, and the same byte means one
thing in one and another in the next. Only `op` words are requests of R71 (log entry 3). -/
inductive Space where
  /-- The operation interface: an op code byte and its operands (R70, R71). -/
  | op
  /-- The deframer's 9-bit input key (R57). -/
  | rxclass
  /-- The header decoder's control byte (R63, R64). -/
  | ctrl8
  /-- The header decoder's protocol-ID byte (R65). -/
  | pid8
deriving DecidableEq, Repr

/-- One instruction as bytes, and the decode table that reads them. -/
structure Message where
  space : Space
  bytes : Bytes
deriving DecidableEq, Repr

/-- The instructions. `inst` is an instance number; integers are mathematical (R68). -/
inductive Instr where
  /-- RXB, receive one byte (R91). -/
  | rxb (inst : Nat) (b : Byte)
  /-- EOF, transport closure (R98). -/
  | eof (inst : Nat)
  /-- POP, take the oldest frame (R99). -/
  | pop (inst : Nat)
  /-- STAT, read status (R100). -/
  | stat (inst : Nat)
  /-- RST, reset one instance (R101). -/
  | rst (inst : Nat)
  /-- ENC, encode a frame for the wire (R105). -/
  | enc (t : Byte) (body : Bytes)
  /-- ESC, escape a body (R104). -/
  | esc (xs : Bytes)
  /-- TYPB, compose a type byte (R106). -/
  | typb (port command : Nat)
  /-- SPLIT, strip the type byte of a raw frame (R107). -/
  | split (f : Bytes)
  /-- AENC, address encode (R81). -/
  | aenc (name : Bytes) (ssid : Int) (hi3 ext : Nat)
  /-- ADEC, address decode (R86). -/
  | adec (a : Bytes)
  /-- HDEC, decode a header (R111). -/
  | hdec (body : Bytes)
  /-- CDEC, classify a control byte (R115). -/
  | cdec (c : Byte)
  /-- PDEC, map a protocol-ID byte (R121). -/
  | pdec (p : Byte)
  /-- UIB, build a UI frame body (R131). -/
  | uib (srcName : Bytes) (srcSsid : Int) (dstName : Bytes) (dstSsid : Int) (payload : Bytes) (padlen : Int)
  /-- CKS, checksum (R77). -/
  | cks (xs : Bytes)
  /-- Input class N_ESC: Normal, ESCAPE (R92). -/
  | nEsc (inst : Nat)
  /-- Input class N_DELIM: Normal, DELIMITER (R93). -/
  | nDelim (inst : Nat)
  /-- Input class N_DATA: Normal, any other byte (R94). -/
  | nData (inst : Nat) (b : Byte)
  /-- Input class E_TESC: Escaped, TRANS_ESCAPE (R95). -/
  | eTesc (inst : Nat)
  /-- Input class E_TDELIM: Escaped, TRANS_DELIMITER (R96). -/
  | eTdelim (inst : Nat)
  /-- Input class E_VIOL: Escaped, any other byte (R97). -/
  | eViol (inst : Nat) (b : Byte)
  /-- Control class I with its fields (R117). -/
  | ctrlI (ns : BitVec 3) (pf : BitVec 1) (nr : BitVec 3)
  /-- Control class S: `nr`, and bits 4:2, which are not decoded (R118). -/
  | ctrlS (nr : BitVec 3) (x : BitVec 3)
  /-- Control class U, SABME; `p` is bit 4, not part of the lookup (R64, R119). -/
  | uSabme (p : BitVec 1)
  /-- Control class U, SABM. -/
  | uSabm (p : BitVec 1)
  /-- Control class U, DISC. -/
  | uDisc (p : BitVec 1)
  /-- Control class U, DM. -/
  | uDm (p : BitVec 1)
  /-- Control class U, UA. -/
  | uUa (p : BitVec 1)
  /-- Control class U, FRMR. -/
  | uFrmr (p : BitVec 1)
  /-- Control class U, UI. -/
  | uUi (p : BitVec 1)
  /-- Control class U, XID. -/
  | uXid (p : BitVec 1)
  /-- Control class U, TEST. -/
  | uTest (p : BitVec 1)
  /-- Control class U, any other value; `x` is bits 7:2 (R64). -/
  | uUnknown (x : BitVec 6)
  /-- Protocol ID 0x01 (R65), and so on down the table. -/
  | pidIso8208
  | pidCompressedTcpip
  | pidUncompressedTcpip
  | pidSegmentationFragment
  | pidTexnet
  | pidLinkQuality
  | pidAppletalk
  | pidArpaIp
  | pidArpaArp
  | pidNetrom
  | pidNoLayer3
  | pidEscape
  /-- Any protocol-ID byte the twelve rows above do not match. -/
  | pidUnknown (p : Byte)
deriving DecidableEq, Repr

end Sys2Proof
end

