-- ==== Sys2Proof/WellFormed.lean ====
section
/-! DEFINITION. The operand domains of 30_encoding.md R68 and R72 that depend on the request alone, and, for the "otherwise"
rows of the table, that no earlier row matches. That `inst` names an instance depends on the state and is checked there. -/

namespace Sys2Proof

/-- A `name` operand: every element 0..127 (R68). -/
def isName (name : Bytes) : Bool := name.all fun c => c.toNat ≤ 127

/-- The nine lookup keys `c & 0xEF` that name a U subtype (R64). -/
def namedUKeys : Bytes := [0x6F, 0x2F, 0x43, 0x0F, 0x63, 0x87, 0x03, 0xAF, 0xE3]

/-- The twelve protocol-ID codes of R65. -/
def namedPids : Bytes := [0x01, 0x06, 0x07, 0x08, 0xC3, 0xC4, 0xCA, 0xCC, 0xCD, 0xCF, 0xF0, 0xFF]

/-- The control byte whose bits 7:2 are `x` and whose bits 1:0 are 11. -/
def uByte (x : BitVec 6) : Byte := x ++ (0b11 : BitVec 2)

/-- An instruction with every operand inside its domain. -/
def Instr.wellFormed : Instr → Bool
  | .rxb _ _ => true
  | .eof _ => true
  | .pop _ => true
  | .stat _ => true
  | .rst _ => true
  | .enc _ _ => true
  | .esc _ => true
  | .typb port command => port ≤ 15 && command ≤ 15
  | .split f => !f.isEmpty
  | .aenc name _ hi3 ext => isName name && hi3 ≤ 7 && ext ≤ 1
  | .adec a => a.length == 7
  | .hdec _ => true
  | .cdec _ => true
  | .pdec _ => true
  | .uib srcName _ dstName _ _ _ => isName dstName && isName srcName
  | .cks _ => true
  | .nEsc _ => true
  | .nDelim _ => true
  | .nData _ b => b != 0xC0 && b != 0xDB
  | .eTesc _ => true
  | .eTdelim _ => true
  | .eViol _ b => b != 0xDC && b != 0xDD
  | .ctrlI _ _ _ => true
  | .ctrlS _ _ => true
  | .uSabme _ => true
  | .uSabm _ => true
  | .uDisc _ => true
  | .uDm _ => true
  | .uUa _ => true
  | .uFrmr _ => true
  | .uUi _ => true
  | .uXid _ => true
  | .uTest _ => true
  | .uUnknown x => !namedUKeys.contains (uByte x &&& 0xEF)
  | .pidIso8208 => true
  | .pidCompressedTcpip => true
  | .pidUncompressedTcpip => true
  | .pidSegmentationFragment => true
  | .pidTexnet => true
  | .pidLinkQuality => true
  | .pidAppletalk => true
  | .pidArpaIp => true
  | .pidArpaArp => true
  | .pidNetrom => true
  | .pidNoLayer3 => true
  | .pidEscape => true
  | .pidUnknown p => !namedPids.contains p

end Sys2Proof
end

