-- ==== Sys2Proof/Decode.lean ====
section
/-! DEFINITION. The decoder and the encoder: the four decode tables of 30_encoding.md (R57, R63 to R65, R71), and the model's
byte layout of a request's operands, which R70 does not fix (log entry 1). A message is one whole request, so a list that
stands last fills the rest of the message. -/

namespace Sys2Proof

/-- Why bytes are no instruction. -/
inductive DecodeError where
  /-- The op code is not one of the sixteen (R72). -/
  | badOp
  /-- The bytes are not one op code with the operands of its format, or not one key or byte (log entry 2). -/
  | malformed
deriving DecidableEq, Repr

/-- The sixteen operations of R71. -/
inductive Op where
  | rxb | eof | pop | stat | rst | enc | esc | typb | split | aenc | adec | hdec | cdec | pdec | uib | cks
deriving DecidableEq, Repr

/-- The operation map of R71. -/
def opTable : List (Byte × Op) :=
  [(0x01, .rxb), (0x02, .eof), (0x03, .pop), (0x04, .stat), (0x05, .rst),
   (0x10, .enc), (0x11, .esc), (0x12, .typb), (0x13, .split),
   (0x20, .aenc), (0x21, .adec), (0x30, .hdec), (0x31, .cdec), (0x32, .pdec), (0x40, .uib), (0x50, .cks)]

/-- The operation an op byte stands for; the whole byte is matched (R71). -/
def opOf (b : Byte) : Option Op := opTable.lookup b

/-! ### Operand layout (log entry 1) -/

/-- A natural number, seven bits a byte, low bits first, bit 7 set on every byte but the last; `fuel` bounds its length. -/
def natBytesAux : Nat → Nat → Bytes
  | 0, n => [BitVec.ofNat 8 n]
  | fuel + 1, n => if n < 128 then [BitVec.ofNat 8 n] else BitVec.ofNat 8 (n % 128 + 128) :: natBytesAux fuel (n / 128)

def natBytes (n : Nat) : Bytes := natBytesAux n n

/-- Reads what `natBytes` writes; a number written longer than it need be is not read. -/
def readNat : Bytes → Option (Nat × Bytes)
  | [] => none
  | b :: bs =>
    if b.toNat < 128 then some (b.toNat, bs)
    else match readNat bs with
      | none => none
      | some (n, rest) => if n = 0 then none else some (b.toNat - 128 + 128 * n, rest)

/-- An integer as a natural number: 0, -1, 1, -2, … are 0, 1, 2, 3, … -/
def zigzag : Int → Nat
  | .ofNat n => 2 * n
  | .negSucc n => 2 * n + 1

def unzigzag (n : Nat) : Int := if n % 2 = 0 then .ofNat (n / 2) else .negSucc (n / 2)

def intBytes (z : Int) : Bytes := natBytes (zigzag z)

def readInt (xs : Bytes) : Option (Int × Bytes) := (readNat xs).map fun (n, rest) => (unzigzag n, rest)

def readByte : Bytes → Option (Byte × Bytes)
  | [] => none
  | b :: bs => some (b, bs)

/-- A byte list that does not stand last: its length, then its bytes. -/
def listBytes (xs : Bytes) : Bytes := natBytes xs.length ++ xs

def readList (xs : Bytes) : Option (Bytes × Bytes) :=
  match readNat xs with
  | none => none
  | some (n, rest) => if n ≤ rest.length then some (rest.take n, rest.drop n) else none

/-- The end of a message: nothing may follow the last operand. -/
def atEnd (i : Instr) : Bytes → Option Instr
  | [] => some i
  | _ :: _ => none

/-- An instance operand alone: format F_I. -/
def readInst (mk : Nat → Instr) (xs : Bytes) : Option Instr := do
  let (i, xs) ← readNat xs
  atEnd (mk i) xs

/-- A byte operand alone: format F_B. -/
def readOneByte (mk : Byte → Instr) (xs : Bytes) : Option Instr := do
  let (b, xs) ← readByte xs
  atEnd (mk b) xs

/-- The operands of each operation, in the order of R70. -/
def readOperands (op : Op) (xs : Bytes) : Option Instr :=
  match op with
  | .rxb => do
    let (i, xs) ← readNat xs
    let (b, xs) ← readByte xs
    atEnd (.rxb i b) xs
  | .eof => readInst .eof xs
  | .pop => readInst .pop xs
  | .stat => readInst .stat xs
  | .rst => readInst .rst xs
  | .enc => do
    let (t, body) ← readByte xs
    some (.enc t body)
  | .esc => some (.esc xs)
  | .typb => do
    let (port, xs) ← readNat xs
    let (command, xs) ← readNat xs
    atEnd (.typb port command) xs
  | .split => some (.split xs)
  | .aenc => do
    let (name, xs) ← readList xs
    let (ssid, xs) ← readInt xs
    let (hi3, xs) ← readNat xs
    let (ext, xs) ← readNat xs
    atEnd (.aenc name ssid hi3 ext) xs
  | .adec => some (.adec xs)
  | .hdec => some (.hdec xs)
  | .cdec => readOneByte .cdec xs
  | .pdec => readOneByte .pdec xs
  | .uib => do
    let (srcName, xs) ← readList xs
    let (srcSsid, xs) ← readInt xs
    let (dstName, xs) ← readList xs
    let (dstSsid, xs) ← readInt xs
    let (payload, xs) ← readList xs
    let (padlen, xs) ← readInt xs
    atEnd (.uib srcName srcSsid dstName dstSsid payload padlen) xs
  | .cks => some (.cks xs)

/-! ### The tables of the other formats: match, mask and the instruction, tried in order -/

/-- R57. The instruction also names the instance that holds the key's `e`. -/
def rxRows : List (BitVec 9 × BitVec 9 × (Nat → Byte → Instr)) :=
  [(0x0DB, 0x1FF, fun i _ => .nEsc i), (0x0C0, 0x1FF, fun i _ => .nDelim i), (0x000, 0x100, fun i b => .nData i b),
   (0x1DD, 0x1FF, fun i _ => .eTesc i), (0x1DC, 0x1FF, fun i _ => .eTdelim i), (0x100, 0x100, fun i b => .eViol i b)]

/-- R63, R64. Bit 4 of a U byte is `p`, and bits 7:2 are the `x` of an Unknown one. -/
def ctrlRows : List (Byte × Byte × (Byte → Instr)) :=
  [(0x00, 0x01, fun c => .ctrlI (c.extractLsb' 1 3) (c.extractLsb' 4 1) (c.extractLsb' 5 3)),
   (0x01, 0x03, fun c => .ctrlS (c.extractLsb' 5 3) (c.extractLsb' 2 3)),
   (0x6F, 0xEF, fun c => .uSabme (c.extractLsb' 4 1)), (0x2F, 0xEF, fun c => .uSabm (c.extractLsb' 4 1)),
   (0x43, 0xEF, fun c => .uDisc (c.extractLsb' 4 1)), (0x0F, 0xEF, fun c => .uDm (c.extractLsb' 4 1)),
   (0x63, 0xEF, fun c => .uUa (c.extractLsb' 4 1)), (0x87, 0xEF, fun c => .uFrmr (c.extractLsb' 4 1)),
   (0x03, 0xEF, fun c => .uUi (c.extractLsb' 4 1)), (0xAF, 0xEF, fun c => .uXid (c.extractLsb' 4 1)),
   (0xE3, 0xEF, fun c => .uTest (c.extractLsb' 4 1)), (0x03, 0x03, fun c => .uUnknown (c.extractLsb' 2 6))]

/-- R65. -/
def pidRows : List (Byte × Byte × (Byte → Instr)) :=
  [(0x01, 0xFF, fun _ => .pidIso8208), (0x06, 0xFF, fun _ => .pidCompressedTcpip),
   (0x07, 0xFF, fun _ => .pidUncompressedTcpip), (0x08, 0xFF, fun _ => .pidSegmentationFragment),
   (0xC3, 0xFF, fun _ => .pidTexnet), (0xC4, 0xFF, fun _ => .pidLinkQuality), (0xCA, 0xFF, fun _ => .pidAppletalk),
   (0xCC, 0xFF, fun _ => .pidArpaIp), (0xCD, 0xFF, fun _ => .pidArpaArp), (0xCF, 0xFF, fun _ => .pidNetrom),
   (0xF0, 0xFF, fun _ => .pidNoLayer3), (0xFF, 0xFF, fun _ => .pidEscape), (0x00, 0x00, fun p => .pidUnknown p)]

/-- The first row whose masked bits are those of `k`. -/
def firstRow {n : Nat} {α : Type} (k : BitVec n) : List (BitVec n × BitVec n × α) → Option α
  | [] => none
  | (bits, mask, a) :: rows => if k &&& mask = bits then some a else firstRow k rows

/-- The class of a 9-bit key, as an instruction on instance `inst` (R57). -/
def decodeKey (inst : Nat) (key : BitVec 9) : Option Instr := (firstRow key rxRows).map fun mk => mk inst (key.setWidth 8)

/-- The class of a control byte (R63, R64). -/
def decodeCtrl (c : Byte) : Option Instr := (firstRow c ctrlRows).map fun mk => mk c

/-- The kind of a protocol-ID byte (R65). -/
def decodePid (p : Byte) : Option Instr := (firstRow p pidRows).map fun mk => mk p

/-! ### Messages -/

def malformedIfNone : Option Instr → Except DecodeError Instr
  | none => .error .malformed
  | some i => .ok i

/-- A request of R70: the op byte alone tells the format (R74). -/
def decodeOp : Bytes → Except DecodeError Instr
  | [] => .error .malformed
  | b :: xs =>
    match opOf b with
    | none => .error .badOp
    | some op => malformedIfNone (readOperands op xs)

/-- A key of R57: its low byte, its bit 8, and the number of the instance (log entry 3). -/
def decodeRx : Bytes → Except DecodeError Instr
  | lo :: hi :: xs =>
    if hi.toNat ≤ 1 then
      malformedIfNone (do
        let (i, xs) ← readNat xs
        let ins ← decodeKey i (BitVec.ofNat 9 (lo.toNat + 256 * hi.toNat))
        atEnd ins xs)
    else .error .malformed
  | _ => .error .malformed

/-- A message of one byte, read by one of the two header tables. -/
def decodeSingle (row : Byte → Option Instr) : Bytes → Except DecodeError Instr
  | [b] => malformedIfNone (row b)
  | _ => .error .malformed

/-- The decoder, total on every message. -/
def decode (m : Message) : Except DecodeError Instr :=
  match m.space with
  | .op => decodeOp m.bytes
  | .rxclass => decodeRx m.bytes
  | .ctrl8 => decodeSingle decodeCtrl m.bytes
  | .pid8 => decodeSingle decodePid m.bytes

/-- A request as a message. -/
def opMsg (op : Byte) (operands : Bytes) : Message := ⟨.op, op :: operands⟩

/-- A key of R57 as a message: `e` is the key's bit 8. -/
def rxMsg (e : Byte) (b : Byte) (inst : Nat) : Message := ⟨.rxclass, b :: e :: natBytes inst⟩

/-- A U control byte: the lookup key with bit 4 set to `p` (R64). -/
def uMsg (key : Byte) (p : BitVec 1) : Message := ⟨.ctrl8, [key ||| (p.setWidth 8 <<< 4)]⟩

def pidMsg (p : Byte) : Message := ⟨.pid8, [p]⟩

/-- The encoder, written from the same tables. -/
def encode : Instr → Message
  | .rxb inst b => opMsg 0x01 (natBytes inst ++ [b])
  | .eof inst => opMsg 0x02 (natBytes inst)
  | .pop inst => opMsg 0x03 (natBytes inst)
  | .stat inst => opMsg 0x04 (natBytes inst)
  | .rst inst => opMsg 0x05 (natBytes inst)
  | .enc t body => opMsg 0x10 (t :: body)
  | .esc xs => opMsg 0x11 xs
  | .typb port command => opMsg 0x12 (natBytes port ++ natBytes command)
  | .split f => opMsg 0x13 f
  | .aenc name ssid hi3 ext => opMsg 0x20 (listBytes name ++ (intBytes ssid ++ (natBytes hi3 ++ natBytes ext)))
  | .adec a => opMsg 0x21 a
  | .hdec body => opMsg 0x30 body
  | .cdec c => opMsg 0x31 [c]
  | .pdec p => opMsg 0x32 [p]
  | .uib srcName srcSsid dstName dstSsid payload padlen =>
    opMsg 0x40 (listBytes srcName ++ (intBytes srcSsid ++ (listBytes dstName ++ (intBytes dstSsid ++
      (listBytes payload ++ intBytes padlen)))))
  | .cks xs => opMsg 0x50 xs
  | .nEsc inst => rxMsg 0 0xDB inst
  | .nDelim inst => rxMsg 0 0xC0 inst
  | .nData inst b => rxMsg 0 b inst
  | .eTesc inst => rxMsg 1 0xDD inst
  | .eTdelim inst => rxMsg 1 0xDC inst
  | .eViol inst b => rxMsg 1 b inst
  | .ctrlI ns pf nr => ⟨.ctrl8, [(nr.setWidth 8 <<< 5) ||| (pf.setWidth 8 <<< 4) ||| (ns.setWidth 8 <<< 1)]⟩
  | .ctrlS nr x => ⟨.ctrl8, [(nr.setWidth 8 <<< 5) ||| (x.setWidth 8 <<< 2) ||| 0x01]⟩
  | .uSabme p => uMsg 0x6F p
  | .uSabm p => uMsg 0x2F p
  | .uDisc p => uMsg 0x43 p
  | .uDm p => uMsg 0x0F p
  | .uUa p => uMsg 0x63 p
  | .uFrmr p => uMsg 0x87 p
  | .uUi p => uMsg 0x03 p
  | .uXid p => uMsg 0xAF p
  | .uTest p => uMsg 0xE3 p
  | .uUnknown x => ⟨.ctrl8, [uByte x]⟩
  | .pidIso8208 => pidMsg 0x01
  | .pidCompressedTcpip => pidMsg 0x06
  | .pidUncompressedTcpip => pidMsg 0x07
  | .pidSegmentationFragment => pidMsg 0x08
  | .pidTexnet => pidMsg 0xC3
  | .pidLinkQuality => pidMsg 0xC4
  | .pidAppletalk => pidMsg 0xCA
  | .pidArpaIp => pidMsg 0xCC
  | .pidArpaArp => pidMsg 0xCD
  | .pidNetrom => pidMsg 0xCF
  | .pidNoLayer3 => pidMsg 0xF0
  | .pidEscape => pidMsg 0xFF
  | .pidUnknown p => pidMsg p

/-! ### The host's question about one row of the table -/

/-- How many operand bytes of zeros the shortest request of the operation has that carries every operand (ADEC's list is
seven bytes long, SPLIT's one). -/
def zeroOperands : Op → Nat
  | .rxb => 2
  | .eof => 1
  | .pop => 1
  | .stat => 1
  | .rst => 1
  | .enc => 1
  | .esc => 0
  | .typb => 2
  | .split => 1
  | .aenc => 4
  | .adec => 7
  | .hdec => 0
  | .cdec => 1
  | .pdec => 1
  | .uib => 6
  | .cks => 0

/-- The message of an instruction whose first bits are `w` and whose operand bytes are zero. A table word does not say its
format: a word of more than one byte is an RXCLASS key, and a byte is read by the most specific row it matches, an op code
first, then one of the twelve named protocol IDs, then a control byte (log entry 4). -/
def tableMessage (nbits w : Nat) : Message :=
  if 8 < nbits then ⟨.rxclass, [BitVec.ofNat 8 w, BitVec.ofNat 8 (w / 256), 0]⟩
  else
    let b := BitVec.ofNat 8 w
    match opOf b with
    | some op => ⟨.op, b :: List.replicate (zeroOperands op) 0⟩
    | none => if namedPids.contains b then ⟨.pid8, [b]⟩ else ⟨.ctrl8, [b]⟩

/-- The instruction the decoder reads from a table word of `nbits` bits; none where a bit above `nbits` is set or the
decoder refuses. -/
def decodeTableWord (nbits w : Nat) : Option Instr :=
  if w < 2 ^ nbits then (decode (tableMessage nbits w)).toOption else none

end Sys2Proof
end

