-- ==== Sys2Proof/Config.lean ====
section
/-! DEFINITION. The parameters of 00_scope.md R6 and 10_state.md R35, and the free values: the checksum function and the
filler draw. The number of deframer instances, N_INST, is the length of State.dfr (log entry 5). -/

namespace Sys2Proof

/-- The two values SSID_CLAMP_MAX may take (R6, R84). -/
inductive ClampMax where
  /-- The default: an SSID clamps to 15. -/
  | fifteen
  /-- The source-preserving variant: an SSID clamps to 16, and a result of 16 is refused. -/
  | sixteen
deriving DecidableEq, Repr

/-- The configuration record of R35, but for N_INST and CHECKSUM. A bound of `none` is the spec's ∞. -/
structure Config where
  /-- MAX_FRAME_BYTES, the bound on an accumulation buffer (R46). -/
  maxFrameBytes : Option Nat
  /-- QUEUE_DEPTH, the bound on an output queue (R47). -/
  queueDepth : Option Nat
  /-- SSID_CLAMP_MAX, the upper end of the SSID clamp (R84). -/
  ssidClampMax : ClampMax
  /-- DST_HI3, bits 7:5 of the destination SSID byte (R133). -/
  dstHi3 : BitVec 3
  /-- SRC_HI3, bits 7:5 of the source SSID byte (R133). -/
  srcHi3 : BitVec 3
deriving DecidableEq, Repr

/-- The default column of R6. -/
def Config.default : Config :=
  { maxFrameBytes := none, queueDepth := none, ssidClampMax := .fifteen, dstHi3 := 0b111, srcHi3 := 0b011 }

/-- R35 asks for a queue depth of at least 1. -/
abbrev Config.Admitted (c : Config) : Prop := c.queueDepth ≠ some 0

/-- CHECKSUM, the open parameter of R78: an uninterpreted function of the byte list alone (log entry 10). -/
opaque Config.checksum : Bytes → BitVec 16

/-- The filler draws of R132: draw number `n` is some value of the 95 in 0x20..0x7E, and nothing else is known of it
(log entry 9). The byte drawn is 0x20 plus this value. -/
opaque Config.fillerDraw : Nat → Fin 95

end Sys2Proof
end

