-- ==== Sys2Proof/Machine/State.lean ====
section
/-! DEFINITION. The state of the core (10_state.md), the result records (R36), the reasons a request is not done
(60_exceptions.md R139) and the state after reset (70_reset_and_hazards.md R151). -/

namespace Sys2Proof.Machine

/-- The escape state of a deframer instance (R22). -/
inductive Esc where
  | normal
  | escaped
deriving DecidableEq, Repr

/-- The state of one deframer instance (R21). -/
structure Dfr where
  /-- Escaped exactly after an ESCAPE received in Normal (R22). -/
  esc : Esc
  /-- The frame in progress, de-escaped, in arrival order (R23). -/
  buf : Bytes
  /-- The completed raw frames not yet popped, oldest first (R25). -/
  q : List Bytes
  /-- True once the instance has accepted EOF (R26). -/
  closed : Bool
deriving DecidableEq, Repr

/-- The reset state of an instance (R151). -/
def Dfr.reset : Dfr := { esc := .normal, buf := [], q := [], closed := false }

/-! ### Result records (R36) -/

/-- The status view (R31). -/
structure Status where
  escaped : Bool
  bufLen : Nat
  qLen : Nat
  closed : Bool
deriving DecidableEq, Repr

/-- A raw frame split into its type byte and body (R107). -/
structure Split where
  type : Byte
  port : BitVec 4
  command : BitVec 4
  body : Bytes
deriving DecidableEq, Repr

/-- A decoded address entry (R87). -/
structure AddrDecoded where
  name : Bytes
  ssid : BitVec 4
  /-- The command/response marker, bit 7 of the SSID byte. -/
  cr : BitVec 1
  /-- The extension flag, bit 0 of the SSID byte. -/
  ext : BitVec 1
  /-- Bits 6:5 of the SSID byte, returned raw. -/
  rr : BitVec 2
  raw : Bytes
deriving DecidableEq, Repr

/-- The U subtypes (R116). -/
inductive USub where
  | sabme | sabm | disc | dm | ua | frmr | ui | xid | test | unknown
deriving DecidableEq, Repr

/-- The frame type a control byte gives (R116). R36 also names a shape `CtrlDecoded` that R116 does not define; the model takes
it for this type and has no record of its own for it (log entry 16). -/
inductive FrameType where
  | i (ns : BitVec 3) (pf : BitVec 1) (nr : BitVec 3)
  | s (nr : BitVec 3)
  | u (sub : USub)
deriving DecidableEq, Repr

/-- The protocol-ID kinds (R122). -/
inductive PidKind where
  | iso8208 | compressedTcpip | uncompressedTcpip | segmentationFragment | texnet | linkQuality | appletalk
  | arpaIp | arpaArp | netrom | noLayer3 | escape | unknown
deriving DecidableEq, Repr

/-- The role of a chain entry (R113); `via k` has k ≥ 1. -/
inductive Role where
  | destination
  | source
  | via (k : Nat)
deriving DecidableEq, Repr

/-- An entry of the address chain (R124). -/
structure ChainEntry where
  role : Role
  addr : AddrDecoded
deriving DecidableEq, Repr

/-- A protocol ID as read: its code and its kind (R124). -/
structure Pid where
  code : Byte
  kind : PidKind
deriving DecidableEq, Repr

/-- The result of the header decoder (R124). -/
structure Header where
  chain : List ChainEntry
  /-- True iff an entry with ext = 1 ended the chain. -/
  complete : Bool
  control : Option Byte
  ftype : Option FrameType
  pid : Option Pid
  payload : Bytes
deriving DecidableEq, Repr

/-- The value an accepted request returns, where it returns one (R19). RXB, EOF and RST return none. -/
inductive Result where
  /-- POP's raw frame (R99). -/
  | frame (f : Bytes)
  /-- STAT's view (R100). -/
  | status (st : Status)
  /-- The bytes ENC, ESC, AENC or UIB built (R105, R104, R81, R131). -/
  | bytes (xs : Bytes)
  /-- TYPB's type byte (R106). -/
  | byte (b : Byte)
  /-- SPLIT's record (R107). -/
  | split (r : Split)
  /-- ADEC's record (R86). -/
  | addr (a : AddrDecoded)
  /-- HDEC's record (R111). -/
  | header (h : Header)
  /-- CDEC's frame type (R115). -/
  | frameType (t : FrameType)
  /-- PDEC's kind (R121). -/
  | pidKind (k : PidKind)
  /-- CKS's 16-bit value (R77). -/
  | checksum (w : BitVec 16)
deriving DecidableEq, Repr

/-! ### The host interface (log entry 6) -/

/-- The kinds of agent that issue requests (R18). -/
inductive AgentKind where
  | transport
  | consumer
  | caller
  | controller
deriving DecidableEq, Repr

/-- One agent outside the core. The core checks no identity (R145); an agent only fixes which requests keep their order. -/
structure Agent where
  kind : AgentKind
  number : Nat
deriving DecidableEq, Repr

/-- A request an agent has issued (R19). -/
structure Request where
  agent : Agent
  message : Message
deriving DecidableEq, Repr

/-! ### Outcomes other than done (R12, R139) -/

/-- The reasons a request is not accepted now, answered by a meaning. No state is written, and the machine does not stop:
`step` leaves the request pending and judges it again later (log entry 7). All are the spec's own outcomes, so safe. -/
inductive Fault where
  /-- Raised by RXB and the N_DELIM row: a delimiter ends a non-empty buffer while the queue is full (R47). A hold, lifted
  by a POP. Safe. -/
  | holdQueueFull
  /-- Raised by POP on an empty queue of an open instance (R99). A hold, lifted by an RXB that pushes. Safe. -/
  | holdQueueEmpty
  /-- Raised by RXB, EOF and the RXCLASS rows on a closed instance (R98). Stuck, ended by RST only. Safe. -/
  | stuckClosed
  /-- Raised by POP on an empty queue of a closed instance (R99). Stuck, ended by RST only. Safe. -/
  | stuckClosedEmpty
  /-- Raised by RXB and the appending RXCLASS rows when the buffer bound is reached (R46). Stuck, ended
  by RST only: the later RXB and EOF of the instance stay behind it (log entry 17). Safe. -/
  | stuckBufferFull
deriving DecidableEq, Repr

/-- The reasons a request is refused: it is outside the admitted domain, no state is written and the run has no meaning
(R12, R72). -/
inductive Refusal where
  /-- An instruction the model gives no meaning; raised by no arm. Safe. -/
  | notModelled (mnemonic : String)
  /-- Raised by fetching: the op code is not one of the sixteen (R72). Safe. -/
  | badOp
  /-- Raised by fetching: the bytes are not one op code with its operands (the model's own, log entry 2). Safe. -/
  | malformed
  /-- Raised by RXB, EOF, POP, STAT, RST and the RXCLASS rows: there is no such instance (R72). Safe. -/
  | badInst
  /-- Raised by TYPB and AENC: a nibble above 15, hi3 above 7 or ext above 1 (R72). Safe. -/
  | operandRange
  /-- Raised by AENC and UIB: a name element above 127 (R72). Safe. -/
  | nameNot7Bit
  /-- Raised by ADEC: the operand is not seven bytes long (R72). Safe. -/
  | notSevenBytes
  /-- Raised by SPLIT on the empty list (R72). Safe. -/
  | emptyFrame
  /-- Raised by AENC and UIB: the SSID clamps to 16 (R84). Safe. -/
  | ssidSixteen
  /-- Raised by the RXCLASS, U_Unknown and PID_Unknown rows where the key does not select that row (the model's own, log
  entry 3). Safe. -/
  | rowNotSelected
deriving DecidableEq, Repr

/-! ### The state of the machine -/

/-- The core's state is `dfr` (R21); `cfg` is the configuration, which nothing writes (R35, log entry 5); the rest is the
model's view of the host interface and of the filler draw. -/
structure State where
  /-- The configuration record (R35). -/
  cfg : Config
  /-- The deframer instances by number; their count is N_INST (R21, R34). -/
  dfr : List Dfr
  /-- The requests issued and not yet accepted, in order of issue (log entry 6). -/
  pending : List Request
  /-- The results of the accepted requests, oldest first (R166, log entry 8). -/
  results : List Result
  /-- How many filler bytes have been drawn (R132, log entry 9). -/
  draws : Nat
deriving DecidableEq, Repr

/-- The state at power-on of a core with `n` instances and configuration `cfg` (R151, R152). -/
def State.powerOn (n : Nat) (cfg : Config) : State :=
  { cfg := cfg, dfr := List.replicate n Dfr.reset, pending := [], results := [], draws := 0 }

/-- The state right after reset, with the default configuration of R6: one instance. -/
def State.reset : State := State.powerOn 1 Config.default

end Sys2Proof.Machine
end

