-- ==== Sys2Proof/Machine/Ops.lean ====
section
/-! DEFINITION. The named operations on the state: an instance's record, a result, a filler draw, and the bounds of R46 and
R47. The core has no registers, memory, program counter or exceptions to operate on (R28, R38, R24, R137). -/

namespace Sys2Proof.Machine

/-- The answer of one operation. -/
abbrev Answer := Host.Outcome State Fault Refusal

/-- Writes the record of instance `i`, and no other (R34). -/
def State.setDfr (s : State) (i : Nat) (d : Dfr) : State := { s with dfr := s.dfr.set i d }

/-- Returns a result to the host (R19). -/
def State.reply (s : State) (r : Result) : State := { s with results := s.results ++ [r] }

/-- Counts `k` filler bytes as drawn. -/
def State.takeDraws (s : State) (k : Nat) : State := { s with draws := s.draws + k }

/-- Replaces the requests that wait. -/
def State.setPending (s : State) (p : List Request) : State := { s with pending := p }

/-- Whether a length has reached a bound; `none` is unbounded (R6). -/
def full (bound : Option Nat) (n : Nat) : Bool :=
  match bound with
  | none => false
  | some m => m ≤ n

/-- Runs `k` on the record of instance `inst`, or refuses with BadInst (R72). -/
def withInst (inst : Nat) (s : State) (k : Dfr → Answer) : Answer :=
  match s.dfr[inst]? with
  | none => .refused .badInst
  | some d => k d

/-! ### The wire constants (R56) -/

abbrev wireDelimiter : Byte := 0xC0
abbrev wireEscape : Byte := 0xDB
abbrev wireTransDelimiter : Byte := 0xDC
abbrev wireTransEscape : Byte := 0xDD

/-- Appends `b` to the buffer and leaves `esc` as given, or is stuck at the buffer bound (R46). -/
def appendByte (inst : Nat) (b : Byte) (esc : Esc) (s : State) (d : Dfr) : Answer :=
  if full s.cfg.maxFrameBytes d.buf.length then .fault .stuckBufferFull
  else .next (s.setDfr inst { d with buf := d.buf ++ [b], esc := esc })

/-- Pushes the non-empty buffer as a frame and clears it, in one step, or holds at the queue bound; an empty buffer is an
idle delimiter (R93, R47). -/
def endFrame (inst : Nat) (s : State) (d : Dfr) : Answer :=
  if d.buf = [] then .next s
  else if full s.cfg.queueDepth d.q.length then .fault .holdQueueFull
  else .next (s.setDfr inst { d with q := d.q ++ [d.buf], buf := [] })

end Sys2Proof.Machine
end

