-- ==== Sys2Proof/Machine/Checksum.lean ====
section
/-! DEFINITION. The checksum unit (40_checksum.md): CKS. -/

namespace Sys2Proof.Machine

/-- CKS: the open function of R78 on exactly the bytes given (R77, R80). -/
def execCks (xs : Bytes) (s : State) : Answer := .next (s.reply (.checksum (Config.checksum xs)))

end Sys2Proof.Machine
end

