-- ==== Sys2Proof/Machine/Deframer.lean ====
section
/-! DEFINITION. The deframer instances (42_kiss_framer.md sections 1 and 2): RXB and its six input classes, EOF, POP, STAT,
RST. -/

namespace Sys2Proof.Machine

/-- The six input classes (R57). -/
inductive RxClass where
  | nEsc | nDelim | nData | eTesc | eTdelim | eViol
deriving DecidableEq, Repr

/-- The class of a received byte, by the escape state (R57). -/
def rxClass (esc : Esc) (b : Byte) : RxClass :=
  match esc with
  | .normal => if b = wireEscape then .nEsc else if b = wireDelimiter then .nDelim else .nData
  | .escaped => if b = wireTransEscape then .eTesc else if b = wireTransDelimiter then .eTdelim else .eViol

/-- R92: the escape state is entered and the byte is not appended. -/
def armNEsc (inst : Nat) (s : State) (d : Dfr) : Answer := .next (s.setDfr inst { d with esc := .escaped })

/-- R97: the frame in progress is dropped and the byte is consumed. -/
def armEViol (inst : Nat) (s : State) (d : Dfr) : Answer := .next (s.setDfr inst { d with buf := [], esc := .normal })

/-- The arm of RXB for one class (R91); the arms of R93 to R96 are `endFrame` and `appendByte`. -/
def rxArm (c : RxClass) (inst : Nat) (b : Byte) (s : State) (d : Dfr) : Answer :=
  match c with
  | .nEsc => armNEsc inst s d
  | .nDelim => endFrame inst s d
  | .nData => appendByte inst b d.esc s d
  | .eTesc => appendByte inst wireEscape .normal s d
  | .eTdelim => appendByte inst wireDelimiter .normal s d
  | .eViol => armEViol inst s d

/-- RXB, one received byte (R91). -/
def execRxb (inst : Nat) (b : Byte) (s : State) : Answer :=
  withInst inst s fun d => if d.closed then .fault .stuckClosed else rxArm (rxClass d.esc b) inst b s d

/-- One row of the RXCLASS table on an instance: its arm, where byte `b` and the instance's escape state select that row
(log entry 3). -/
def rxRow (c : RxClass) (inst : Nat) (b : Byte) (s : State) : Answer :=
  withInst inst s fun d =>
    if rxClass d.esc b = c then if d.closed then .fault .stuckClosed else rxArm c inst b s d
    else .refused .rowNotSelected

/-- N_ESC (R92). -/
def execNEsc (inst : Nat) (s : State) : Answer := rxRow .nEsc inst wireEscape s

/-- N_DELIM (R93). -/
def execNDelim (inst : Nat) (s : State) : Answer := rxRow .nDelim inst wireDelimiter s

/-- N_DATA (R94). -/
def execNData (inst : Nat) (b : Byte) (s : State) : Answer := rxRow .nData inst b s

/-- E_TESC (R95). -/
def execETesc (inst : Nat) (s : State) : Answer := rxRow .eTesc inst wireTransEscape s

/-- E_TDELIM (R96). -/
def execETdelim (inst : Nat) (s : State) : Answer := rxRow .eTdelim inst wireTransDelimiter s

/-- E_VIOL (R97). -/
def execEViol (inst : Nat) (b : Byte) (s : State) : Answer := rxRow .eViol inst b s

/-- EOF: the frame in progress is discarded, the queue kept, the instance closed (R98). -/
def execEof (inst : Nat) (s : State) : Answer :=
  withInst inst s fun d =>
    if d.closed then .fault .stuckClosed else .next (s.setDfr inst { d with buf := [], esc := .normal, closed := true })

/-- POP: the oldest frame is returned and removed (R99). -/
def execPop (inst : Nat) (s : State) : Answer :=
  withInst inst s fun d =>
    match d.q with
    | [] => if d.closed then .fault .stuckClosedEmpty else .fault .holdQueueEmpty
    | f :: rest => .next ((s.setDfr inst { d with q := rest }).reply (.frame f))

/-- The status view of an instance (R31). -/
def statusOf (d : Dfr) : Status :=
  { escaped := d.esc = .escaped, bufLen := d.buf.length, qLen := d.q.length, closed := d.closed }

/-- STAT (R100). -/
def execStat (inst : Nat) (s : State) : Answer := withInst inst s fun d => .next (s.reply (.status (statusOf d)))

/-- RST: the reset state, accepted in every state (R101). -/
def execRst (inst : Nat) (s : State) : Answer := withInst inst s fun _ => .next (s.setDfr inst Dfr.reset)

end Sys2Proof.Machine
end

