-- ==== Sys2Proof/Machine/Flags.lean ====
section
/-! DEFINITION. The core has no condition codes (10_state.md R29). The flags and fields the source names are bit fields of
received bytes, unpacked here (30_encoding.md R61, R63, R69). -/

namespace Sys2Proof.Machine

/-- The SSID, bits 4:1 of the SSID byte. -/
def ssidOf (s : Byte) : BitVec 4 := s.extractLsb' 1 4

/-- The command/response marker, bit 7 of the SSID byte. -/
def crOf (s : Byte) : BitVec 1 := s.extractLsb' 7 1

/-- Bits 6:5 of the SSID byte, without a meaning in the source. -/
def rrOf (s : Byte) : BitVec 2 := s.extractLsb' 5 2

/-- The extension flag, bit 0 of the SSID byte. -/
def extOf (s : Byte) : BitVec 1 := s.extractLsb' 0 1

/-- The port of a type byte, bits 7:4 (R60). -/
def portOf (t : Byte) : BitVec 4 := t.extractLsb' 4 4

/-- The command of a type byte, bits 3:0 (R60). -/
def commandOf (t : Byte) : BitVec 4 := t.extractLsb' 0 4

/-- The send sequence of an I control byte, bits 3:1. -/
def nsOf (c : Byte) : BitVec 3 := c.extractLsb' 1 3

/-- The poll/final bit of an I control byte, bit 4. -/
def pfOf (c : Byte) : BitVec 1 := c.extractLsb' 4 1

/-- The receive sequence of an I or S control byte, bits 7:5. -/
def nrOf (c : Byte) : BitVec 3 := c.extractLsb' 5 3

end Sys2Proof.Machine
end

