-- ==== Sys2Proof/Machine/Operands.lean ====
section
/-! DEFINITION. Operand assembly (30_encoding.md R68, R69): the fields the core packs, the SSID clamp, and the operand checks
of R72. -/

namespace Sys2Proof.Machine

/-- The type byte `(port << 4) | command` (R60). -/
def packType (port command : Nat) : Byte := (BitVec.ofNat 8 port <<< 4) ||| BitVec.ofNat 8 command

/-- The upper end of the SSID clamp. -/
def clampBound : ClampMax → Int
  | .fifteen => 15
  | .sixteen => 16

/-- The clamped SSID, `min(max(ssid, 0), SSID_CLAMP_MAX)` (R84). -/
def clampSsid (m : ClampMax) (ssid : Int) : Nat := (min (max ssid 0) (clampBound m)).toNat

/-- The seventh byte of an address entry, `(hi3 << 5) | (s << 1) | ext` (R85). -/
def packSsid (hi3 s ext : Nat) : Byte := (BitVec.ofNat 8 hi3 <<< 5) ||| (BitVec.ofNat 8 s <<< 1) ||| BitVec.ofNat 8 ext

/-- The number of filler bytes, `max(0, padlen - len(payload))` (R132). -/
def fillerCount (payload : Bytes) (padlen : Int) : Nat := (padlen - payload.length).toNat

end Sys2Proof.Machine
end

