-- ==== Sys2Proof/Machine/Encoder.lean ====
section
/-! DEFINITION. The encoder unit (42_kiss_framer.md section 4): ENC, ESC, TYPB, SPLIT. -/

namespace Sys2Proof.Machine

/-- The wire bytes of one body byte (R59, R104). -/
def escapeByte (b : Byte) : Bytes :=
  if b = wireDelimiter then [wireEscape, wireTransDelimiter]
  else if b = wireEscape then [wireEscape, wireTransEscape]
  else [b]

/-- The original bytes, left to right; inserted bytes are not escaped again (R104). -/
def escape : Bytes → Bytes
  | [] => []
  | b :: bs => escapeByte b ++ escape bs

/-- The wire frame; the type byte is not escaped (R58, R105). -/
def wireFrame (t : Byte) (body : Bytes) : Bytes := [wireDelimiter, t] ++ escape body ++ [wireDelimiter]

/-- ENC (R105). -/
def execEnc (t : Byte) (body : Bytes) (s : State) : Answer := .next (s.reply (.bytes (wireFrame t body)))

/-- ESC (R104). -/
def execEsc (xs : Bytes) (s : State) : Answer := .next (s.reply (.bytes (escape xs)))

/-- TYPB (R106). -/
def execTypb (port command : Nat) (s : State) : Answer :=
  if 15 < port ∨ 15 < command then .refused .operandRange else .next (s.reply (.byte (packType port command)))

/-- SPLIT (R107). -/
def execSplit (f : Bytes) (s : State) : Answer :=
  match f with
  | [] => .refused .emptyFrame
  | t :: body => .next (s.reply (.split { type := t, port := portOf t, command := commandOf t, body := body }))

end Sys2Proof.Machine
end

