-- ==== Sys2Proof/Machine/Address.lean ====
section
/-! DEFINITION. The address codec unit (41_callsign_codec.md): AENC, ADEC. -/

namespace Sys2Proof.Machine

/-- ASCII a to z become A to Z; every other code stays (R82). -/
def upcase (c : Byte) : Byte := if 0x61 ≤ c ∧ c ≤ 0x7A then c - 0x20 else c

/-- The name upper-cased, cut to six characters, or filled with spaces on the right (R82, R83). -/
def sixChars (name : Bytes) : Bytes :=
  let u := name.map upcase
  u.take 6 ++ List.replicate (6 - min 6 u.length) 0x20

/-- The seven bytes of an address entry, or the refusal of R81 that comes first. -/
def encodeAddr (m : ClampMax) (name : Bytes) (ssid : Int) (hi3 ext : Nat) : Except Refusal Bytes :=
  if !isName name then .error .nameNot7Bit
  else if 7 < hi3 ∨ 1 < ext then .error .operandRange
  else if clampSsid m ssid = 16 then .error .ssidSixteen
  else .ok ((sixChars name).map (fun c : Byte => c <<< 1) ++ [packSsid hi3 (clampSsid m ssid) ext])

/-- AENC (R81). -/
def execAenc (name : Bytes) (ssid : Int) (hi3 ext : Nat) (s : State) : Answer :=
  match encodeAddr s.cfg.ssidClampMax name ssid hi3 ext with
  | .error r => .refused r
  | .ok bytes => .next (s.reply (.bytes bytes))

/-- The pad characters that trimming removes: space and NUL (R88). -/
def isPad (c : Byte) : Bool := c == 0x20 || c == 0x00

/-- Removes pad characters from the end, up to the last other character (R88). -/
def trimTrailing (chars : Bytes) : Bytes := (chars.reverse.dropWhile isPad).reverse

/-- Decodes an address entry from its six character bytes and its SSID byte (R86). -/
def decodeEntry (chars : Bytes) (s : Byte) : AddrDecoded :=
  { name := trimTrailing (chars.map fun a : Byte => a >>> 1), ssid := ssidOf s, cr := crOf s, ext := extOf s, rr := rrOf s,
    raw := chars ++ [s] }

/-- ADEC (R86). -/
def execAdec (a : Bytes) (s : State) : Answer :=
  match a with
  | [a0, a1, a2, a3, a4, a5, a6] => .next (s.reply (.addr (decodeEntry [a0, a1, a2, a3, a4, a5] a6)))
  | _ => .refused .notSevenBytes

end Sys2Proof.Machine
end

