-- ==== Sys2Proof/Machine/Header.lean ====
section
/-! DEFINITION. The header decoder unit (43_header_decoder.md): HDEC, CDEC, PDEC, and the rows of the CTRL8 and PID8
tables. -/

namespace Sys2Proof.Machine

/-! ### The control byte -/

/-- The U subtype of a lookup key (R64). -/
def usub (key : Byte) : USub :=
  if key = 0x6F then .sabme
  else if key = 0x2F then .sabm
  else if key = 0x43 then .disc
  else if key = 0x0F then .dm
  else if key = 0x63 then .ua
  else if key = 0x87 then .frmr
  else if key = 0x03 then .ui
  else if key = 0xAF then .xid
  else if key = 0xE3 then .test
  else .unknown

/-- The frame type of a control byte (R115). -/
def classify (c : Byte) : FrameType :=
  if c &&& 0x01 = 0x00 then .i (nsOf c) (pfOf c) (nrOf c)
  else if c &&& 0x03 = 0x01 then .s (nrOf c)
  else .u (usub (c &&& 0xEF))

/-- CDEC (R115). -/
def execCdec (c : Byte) (s : State) : Answer := .next (s.reply (.frameType (classify c)))

/-- What a row of the CTRL8 table gives: a frame type. -/
def replyType (t : FrameType) (s : State) : Answer := .next (s.reply (.frameType t))

/-- I (R117). -/
def execCtrlI (ns : BitVec 3) (pf : BitVec 1) (nr : BitVec 3) (s : State) : Answer := replyType (.i ns pf nr) s

/-- S; bits 4:2 are not decoded (R118). -/
def execCtrlS (nr : BitVec 3) (_x : BitVec 3) (s : State) : Answer := replyType (.s nr) s

/-- U_SABME; bit 4 is not part of the lookup (R119), here and in the rows below. -/
def execUSabme (_p : BitVec 1) (s : State) : Answer := replyType (.u .sabme) s

/-- U_SABM. -/
def execUSabm (_p : BitVec 1) (s : State) : Answer := replyType (.u .sabm) s

/-- U_DISC. -/
def execUDisc (_p : BitVec 1) (s : State) : Answer := replyType (.u .disc) s

/-- U_DM. -/
def execUDm (_p : BitVec 1) (s : State) : Answer := replyType (.u .dm) s

/-- U_UA. -/
def execUUa (_p : BitVec 1) (s : State) : Answer := replyType (.u .ua) s

/-- U_FRMR. -/
def execUFrmr (_p : BitVec 1) (s : State) : Answer := replyType (.u .frmr) s

/-- U_UI. -/
def execUUi (_p : BitVec 1) (s : State) : Answer := replyType (.u .ui) s

/-- U_XID. -/
def execUXid (_p : BitVec 1) (s : State) : Answer := replyType (.u .xid) s

/-- U_TEST. -/
def execUTest (_p : BitVec 1) (s : State) : Answer := replyType (.u .test) s

/-- U_Unknown: a U value that none of the nine rows above matches (R119). -/
def execUUnknown (x : BitVec 6) (s : State) : Answer :=
  if usub (uByte x &&& 0xEF) = .unknown then replyType (.u .unknown) s else .refused .rowNotSelected

/-! ### The protocol ID -/

/-- The kind of a protocol-ID byte (R121). -/
def pidKindOf (p : Byte) : PidKind :=
  if p = 0x01 then .iso8208
  else if p = 0x06 then .compressedTcpip
  else if p = 0x07 then .uncompressedTcpip
  else if p = 0x08 then .segmentationFragment
  else if p = 0xC3 then .texnet
  else if p = 0xC4 then .linkQuality
  else if p = 0xCA then .appletalk
  else if p = 0xCC then .arpaIp
  else if p = 0xCD then .arpaArp
  else if p = 0xCF then .netrom
  else if p = 0xF0 then .noLayer3
  else if p = 0xFF then .escape
  else .unknown

/-- PDEC (R121). -/
def execPdec (p : Byte) (s : State) : Answer := .next (s.reply (.pidKind (pidKindOf p)))

/-- What a row of the PID8 table gives: a kind. -/
def replyKind (k : PidKind) (s : State) : Answer := .next (s.reply (.pidKind k))

/-- PID_ISO8208 (R65), and so on down the table. -/
def execPidIso8208 (s : State) : Answer := replyKind .iso8208 s

/-- PID_CompressedTCPIP. -/
def execPidCompressedTcpip (s : State) : Answer := replyKind .compressedTcpip s

/-- PID_UncompressedTCPIP. -/
def execPidUncompressedTcpip (s : State) : Answer := replyKind .uncompressedTcpip s

/-- PID_SegmentationFragment. -/
def execPidSegmentationFragment (s : State) : Answer := replyKind .segmentationFragment s

/-- PID_TEXNET. -/
def execPidTexnet (s : State) : Answer := replyKind .texnet s

/-- PID_LinkQuality. -/
def execPidLinkQuality (s : State) : Answer := replyKind .linkQuality s

/-- PID_Appletalk. -/
def execPidAppletalk (s : State) : Answer := replyKind .appletalk s

/-- PID_ARPA_IP. -/
def execPidArpaIp (s : State) : Answer := replyKind .arpaIp s

/-- PID_ARPA_ARP. -/
def execPidArpaArp (s : State) : Answer := replyKind .arpaArp s

/-- PID_NETROM. -/
def execPidNetrom (s : State) : Answer := replyKind .netrom s

/-- PID_NoLayer3. -/
def execPidNoLayer3 (s : State) : Answer := replyKind .noLayer3 s

/-- PID_Escape: nothing more is read after 0xFF (R121). -/
def execPidEscape (s : State) : Answer := replyKind .escape s

/-- PID_Unknown: a byte that none of the twelve rows above matches. -/
def execPidUnknown (p : Byte) (s : State) : Answer :=
  if pidKindOf p = .unknown then replyKind .unknown s else .refused .rowNotSelected

/-! ### The whole header -/

/-- The role of entry `n` of the chain (R113). -/
def roleOf : Nat → Role
  | 0 => .destination
  | 1 => .source
  | n + 2 => .via (n + 1)

/-- The walk of R112 from entry `n` on: the entries, whether an extension flag ended the chain, and the bytes left. A group
is decoded only when all seven bytes are there. -/
def walk (n : Nat) : Bytes → List ChainEntry × Bool × Bytes
  | a0 :: a1 :: a2 :: a3 :: a4 :: a5 :: a6 :: rest =>
    let entry : ChainEntry := { role := roleOf n, addr := decodeEntry [a0, a1, a2, a3, a4, a5] a6 }
    if extOf a6 = 1 then ([entry], true, rest)
    else
      let (chain, complete, left) := walk (n + 1) rest
      (entry :: chain, complete, left)
  | xs => ([], false, xs)

/-- Whether a frame type carries a protocol ID: I, and U with subtype UI (R120). -/
def hasPid : FrameType → Bool
  | .i _ _ _ => true
  | .s _ => false
  | .u sub => sub = .ui

/-- HDEC's result: the chain, then the control byte, then the protocol ID, then the payload (R111). -/
def decodeHeader (body : Bytes) : Header :=
  match walk 0 body with
  | (chain, false, left) =>
    { chain := chain, complete := false, control := none, ftype := none, pid := none, payload := left }
  | (chain, true, []) =>
    { chain := chain, complete := true, control := none, ftype := none, pid := none, payload := [] }
  | (chain, true, c :: left) =>
    match hasPid (classify c), left with
    | true, p :: payload =>
      { chain := chain, complete := true, control := some c, ftype := some (classify c),
        pid := some { code := p, kind := pidKindOf p }, payload := payload }
    | _, payload =>
      { chain := chain, complete := true, control := some c, ftype := some (classify c), pid := none, payload := payload }

/-- HDEC (R111). -/
def execHdec (body : Bytes) (s : State) : Answer := .next (s.reply (.header (decodeHeader body)))

end Sys2Proof.Machine
end

