-- ==== Sys2Proof/Machine/UiBuilder.lean ====
section
/-! DEFINITION. The UI frame builder unit (44_ui_frame_builder.md): UIB. -/

namespace Sys2Proof.Machine

/-- One filler byte, a free value in 0x20..0x7E (R132, log entry 9). -/
def fillerByte (draw : Nat) : Byte := BitVec.ofNat 8 (0x20 + (Config.fillerDraw draw).val)

/-- `k` filler bytes, from draw number `draw` on. -/
def filler (draw : Nat) : Nat → Bytes
  | 0 => []
  | k + 1 => fillerByte draw :: filler (draw + 1) k

/-- The body of a UI frame: addresses, control 0x03, PID 0xF0, payload and filler (R67, R131). -/
def uiBody (dst src payload fill : Bytes) : Bytes := dst ++ src ++ [0x03, 0xF0] ++ payload ++ fill

/-- UIB; the destination is checked before the source, and a refusal of either refuses the whole (R131, R140). -/
def execUib (srcName : Bytes) (srcSsid : Int) (dstName : Bytes) (dstSsid : Int) (payload : Bytes) (padlen : Int)
    (s : State) : Answer :=
  match encodeAddr s.cfg.ssidClampMax dstName dstSsid s.cfg.dstHi3.toNat 0 with
  | .error r => .refused r
  | .ok dst =>
    match encodeAddr s.cfg.ssidClampMax srcName srcSsid s.cfg.srcHi3.toNat 1 with
    | .error r => .refused r
    | .ok src =>
      .next ((s.takeDraws (fillerCount payload padlen)).reply
        (.bytes (uiBody dst src payload (filler s.draws (fillerCount payload padlen)))))

end Sys2Proof.Machine
end

