-- ==== Sys2Proof/Machine/Dispatch.lean ====
section
/-! DEFINITION. What each instruction does: one arm per row of opcode_table.json, in the table's order. -/

namespace Sys2Proof.Machine

def exec (i : Instr) (s : State) : Host.Outcome State Fault Refusal :=
  match i with
  | .rxb inst b => Sys2Proof.Machine.execRxb inst b s
  | .eof inst => Sys2Proof.Machine.execEof inst s
  | .pop inst => Sys2Proof.Machine.execPop inst s
  | .stat inst => Sys2Proof.Machine.execStat inst s
  | .rst inst => Sys2Proof.Machine.execRst inst s
  | .enc t body => Sys2Proof.Machine.execEnc t body s
  | .esc xs => Sys2Proof.Machine.execEsc xs s
  | .typb port command => Sys2Proof.Machine.execTypb port command s
  | .split f => Sys2Proof.Machine.execSplit f s
  | .aenc name ssid hi3 ext => Sys2Proof.Machine.execAenc name ssid hi3 ext s
  | .adec a => Sys2Proof.Machine.execAdec a s
  | .hdec body => Sys2Proof.Machine.execHdec body s
  | .cdec c => Sys2Proof.Machine.execCdec c s
  | .pdec p => Sys2Proof.Machine.execPdec p s
  | .uib srcName srcSsid dstName dstSsid payload padlen => Sys2Proof.Machine.execUib srcName srcSsid dstName dstSsid payload padlen s
  | .cks xs => Sys2Proof.Machine.execCks xs s
  | .nEsc inst => Sys2Proof.Machine.execNEsc inst s
  | .nDelim inst => Sys2Proof.Machine.execNDelim inst s
  | .nData inst b => Sys2Proof.Machine.execNData inst b s
  | .eTesc inst => Sys2Proof.Machine.execETesc inst s
  | .eTdelim inst => Sys2Proof.Machine.execETdelim inst s
  | .eViol inst b => Sys2Proof.Machine.execEViol inst b s
  | .ctrlI ns pf nr => Sys2Proof.Machine.execCtrlI ns pf nr s
  | .ctrlS nr x => Sys2Proof.Machine.execCtrlS nr x s
  | .uSabme p => Sys2Proof.Machine.execUSabme p s
  | .uSabm p => Sys2Proof.Machine.execUSabm p s
  | .uDisc p => Sys2Proof.Machine.execUDisc p s
  | .uDm p => Sys2Proof.Machine.execUDm p s
  | .uUa p => Sys2Proof.Machine.execUUa p s
  | .uFrmr p => Sys2Proof.Machine.execUFrmr p s
  | .uUi p => Sys2Proof.Machine.execUUi p s
  | .uXid p => Sys2Proof.Machine.execUXid p s
  | .uTest p => Sys2Proof.Machine.execUTest p s
  | .uUnknown x => Sys2Proof.Machine.execUUnknown x s
  | .pidIso8208 => Sys2Proof.Machine.execPidIso8208 s
  | .pidCompressedTcpip => Sys2Proof.Machine.execPidCompressedTcpip s
  | .pidUncompressedTcpip => Sys2Proof.Machine.execPidUncompressedTcpip s
  | .pidSegmentationFragment => Sys2Proof.Machine.execPidSegmentationFragment s
  | .pidTexnet => Sys2Proof.Machine.execPidTexnet s
  | .pidLinkQuality => Sys2Proof.Machine.execPidLinkQuality s
  | .pidAppletalk => Sys2Proof.Machine.execPidAppletalk s
  | .pidArpaIp => Sys2Proof.Machine.execPidArpaIp s
  | .pidArpaArp => Sys2Proof.Machine.execPidArpaArp s
  | .pidNetrom => Sys2Proof.Machine.execPidNetrom s
  | .pidNoLayer3 => Sys2Proof.Machine.execPidNoLayer3 s
  | .pidEscape => Sys2Proof.Machine.execPidEscape s
  | .pidUnknown p => Sys2Proof.Machine.execPidUnknown p s

end Sys2Proof.Machine
end

