-- ==== Sys2Proof/Machine/Fetch.lean ====
section
/-! DEFINITION. How a request comes to be performed: reading its message, and choosing which pending request is next (log
entries 6 and 7). The core has no program counter and fetches nothing itself (10_state.md R24). -/

namespace Sys2Proof.Machine

/-- A message that is no instruction is refused (R72, log entry 2). -/
def refusalOf : DecodeError → Refusal
  | .badOp => .badOp
  | .malformed => .malformed

/-- Performs the request a message carries. -/
def attempt (m : Message) (s : State) : Answer :=
  match decode m with
  | .error e => .refused (refusalOf e)
  | .ok i => exec i s

/-- The instance an instruction brings transport input to: RXB and its rows (a byte), EOF (closure) (R18). -/
def transportInst : Instr → Option Nat
  | .rxb inst _ => some inst
  | .eof inst => some inst
  | .nEsc inst => some inst
  | .nDelim inst => some inst
  | .nData inst _ => some inst
  | .eTesc inst => some inst
  | .eTdelim inst => some inst
  | .eViol inst _ => some inst
  | _ => none

/-- The instance a request brings transport input to. -/
def inputOf (r : Request) : Option Nat :=
  match decode r.message with
  | .error _ => none
  | .ok i => transportInst i

/-- Whether a request `r` may not be performed before an earlier request `p`: both are of one agent (R48, R51), or both bring
transport input to one instance, whose RXB are not reordered (R48) and whose RXB and EOF are stuck behind a stuck one (R46),
whoever issues them (log entry 17). -/
def mustPrecede (p r : Request) : Bool :=
  p.agent = r.agent || (inputOf p).isSome && inputOf p == inputOf r

/-- Goes through the pending requests in order of issue and performs the first that is accepted (or is refused). A request
that is held or stuck stays where it is, and so do the later ones that it must precede (R46, R48); another agent's may go
first (R51). `passed` holds the requests gone by, none of them performed. If none is accepted, nothing changes (R150). -/
def serve (s : State) (passed : List Request) : List Request → Answer
  | [] => .next s
  | r :: rest =>
    if passed.any (fun p => mustPrecede p r) then serve s (passed ++ [r]) rest
    else
      match attempt r.message (s.setPending (passed ++ rest)) with
      | .next t => .next t
      | .refused e => .refused e
      | .fault _ => serve s (passed ++ [r]) rest

/-- The agent a placed message is issued by. -/
def placer : Agent := { kind := .caller, number := 0 }

/-- The escape state a 9-bit key says its instance is in: the key's bit 8 (R57). -/
def keyEsc (w : Nat) : Esc := if w / 256 % 2 = 1 then .escaped else .normal

/-- Issues a message before all others. A key of R57 carries the escape state of instance 0 in its bit 8, so that is set
with it (log entry 4). -/
def placeWord (s : State) (nbits w : Nat) : State :=
  let t := s.setPending ({ agent := placer, message := tableMessage nbits w } :: s.pending)
  if 8 < nbits then { t with dfr := t.dfr.modify 0 fun d => { d with esc := keyEsc w } } else t

end Sys2Proof.Machine
end

