-- ==== Sys2Proof/Machine/Step.lean ====
section
/-! DEFINITION. One step of the core: the next request that can be performed, whole (20_memory.md R44). -/

namespace Sys2Proof.Machine

/-- One step. It answers no fault: a request that waits leaves the machine as it is (log entry 7). -/
def step (s : State) : Host.Outcome State Fault Refusal := serve s [] s.pending

/-- `s` with the instruction of a table word issued as its next request. -/
def State.withFetchWord (s : State) (nbits w : Nat) : State := placeWord s nbits w

end Sys2Proof.Machine
end

