-- ==== Sys2Proof/Safety.lean ====
section
/-! DEFINITION. The terms claims use: the invariants of 10_state.md R27, runs of received bytes (30_encoding.md R76), and how a
run ends (70_reset_and_hazards.md R166). -/

namespace Sys2Proof.Machine

/-- A length within a bound; `none` is unbounded. -/
def within (bound : Option Nat) (n : Nat) : Prop := ∀ m, bound = some m → n ≤ m

/-- The invariants of one instance (R27). -/
def Dfr.Inv (cfg : Config) (d : Dfr) : Prop :=
  (∀ f ∈ d.q, f ≠ []) ∧ (d.closed = true → d.esc = .normal ∧ d.buf = []) ∧
  within cfg.maxFrameBytes d.buf.length ∧ within cfg.queueDepth d.q.length

/-- The invariant of the machine: a configuration R35 admits, at least one instance, R27 for every instance, and no empty
frame among POP's results (R99). -/
def State.Inv (s : State) : Prop :=
  s.cfg.Admitted ∧ s.dfr ≠ [] ∧ (∀ d ∈ s.dfr, d.Inv s.cfg) ∧ ∀ f, Result.frame f ∈ s.results → f ≠ []

/-- Both bounds at their default, no bound (R6). -/
def Unbounded (c : Config) : Prop := c.maxFrameBytes = none ∧ c.queueDepth = none

/-- The pseudo-operation `rxs`: one RXB for each byte, in order (R76). -/
def rxs (inst : Nat) : Bytes → State → Answer
  | [], s => .next s
  | b :: bs, s =>
    match exec (.rxb inst b) s with
    | .next t => rxs inst bs t
    | .fault f => .fault f
    | .refused r => .refused r

/-- Whether a request that was not accepted is held, and not stuck (R139). -/
def Fault.isHold : Fault → Bool
  | .holdQueueFull => true
  | .holdQueueEmpty => true
  | .stuckClosed => false
  | .stuckClosedEmpty => false
  | .stuckBufferFull => false

/-- The requests that no earlier one must precede: the ones that are judged next. -/
def heads (passed : List Request) : List Request → List Request
  | [] => []
  | r :: rest =>
    if passed.any (fun p => mustPrecede p r) then heads (passed ++ [r]) rest else r :: heads (passed ++ [r]) rest

/-- Why a request waits, if it does. -/
def waitOf (s : State) (r : Request) : Option Fault :=
  match attempt r.message s with
  | .next _ => none
  | .fault f => some f
  | .refused _ => none

/-- Where a run stands (R166). -/
inductive Standing where
  /-- A pending request can be performed or refused. -/
  | running
  /-- Every request is done. -/
  | finished
  /-- No pending request can be accepted, and one is held, whether or not another is stuck (log entry 15). -/
  | blocked
  /-- No pending request can be accepted, and all that are judged are stuck (log entry 15). -/
  | stuck
deriving DecidableEq, Repr

/-- Where the run stands at `s`, as far as the pending requests tell (R166, log entry 12). Where one agent's request is held and
another's is stuck, conditions 3 and 4 of R166 both hold and the spec does not say which ending it is: answering `blocked` is
the model's DESIGN CHOICE (log entry 15). -/
def standing (s : State) : Standing :=
  if s.pending = [] then .finished
  else
    let waits := (heads [] s.pending).map (waitOf s)
    if waits.any Option.isNone then .running
    else if waits.any (fun w => (w.map Fault.isHold).getD false) then .blocked
    else .stuck

/-! ### Domains and layouts claims speak of -/

/-- The instance a request names, if its format has one (R70). -/
def target : Instr → Option Nat
  | .rxb inst _ => some inst
  | .eof inst => some inst
  | .pop inst => some inst
  | .stat inst => some inst
  | .rst inst => some inst
  | .nEsc inst => some inst
  | .nDelim inst => some inst
  | .nData inst _ => some inst
  | .eTesc inst => some inst
  | .eTdelim inst => some inst
  | .eViol inst _ => some inst
  | _ => none

/-- The SSID operands of a request (R68). -/
def ssids : Instr → List Int
  | .aenc _ ssid _ _ => [ssid]
  | .uib _ srcSsid _ dstSsid _ _ => [dstSsid, srcSsid]
  | _ => []

/-- The admitted domain of R72: operands in their kinds' sets, an instance that exists, no SSID that clamps to 16. -/
def Admits (s : State) (i : Instr) : Prop :=
  i.wellFormed = true ∧ (∀ n, target i = some n → n < s.dfr.length) ∧
  ∀ z ∈ ssids i, clampSsid s.cfg.ssidClampMax z ≠ 16

/-- A character of the round trip's domain: A to Z and 0 to 9 (R89). -/
def isAlnum (c : Byte) : Prop := (0x41 ≤ c.toNat ∧ c.toNat ≤ 0x5A) ∨ (0x30 ≤ c.toNat ∧ c.toNat ≤ 0x39)

/-- A name of the round trip's domain: 1 to 6 of those characters (R89). -/
def CallName (name : Bytes) : Prop := 1 ≤ name.length ∧ name.length ≤ 6 ∧ ∀ c ∈ name, isAlnum c

/-- A group of seven bytes whose extension flag, bit 0 of the last byte, is `ext` (R61, R112). -/
def IsGroup (ext : Bool) (g : Bytes) : Prop := g.length = 7 ∧ ∃ b, g[6]? = some b ∧ b.getLsbD 0 = ext

/-- Bytes of an address chain that ends: groups whose extension flag is 0, then one whose flag is 1 (R62). -/
def CompleteChain (gs : List Bytes) (g : Bytes) : Prop := (∀ a ∈ gs, IsGroup false a) ∧ IsGroup true g

/-- The instance record while bytes may arrive without limit: open, both bounds off (R102). -/
def OpenUnbounded (s : State) (inst : Nat) (d : Dfr) : Prop :=
  s.dfr[inst]? = some d ∧ d.closed = false ∧ Unbounded s.cfg

end Sys2Proof.Machine
end

