-- ==== Sys2Proof/Certificates/Slice0/Obligations.lean ====
section
/-! DEFINITION. The statements about the core, from the numbered rules of spec/. Each docstring names the rules. A next state is
written out as the state before with the fields that change, so an equation also says what stays as it was. -/

open Sys2Proof Sys2Proof.Machine

/-! ### Reset, invariant, configuration -/

/-- R151: the reset state at power-on and after RST, the STAT view right after it, and that RST leaves the configuration. -/
def Obligations.ResetStateOfEveryInstance : Prop :=
  (∀ n cfg, (State.powerOn n cfg).dfr = List.replicate n { esc := .normal, buf := [], q := [], closed := false } ∧
    (State.powerOn n cfg).cfg = cfg ∧
    ∀ i, i < n → exec (.stat i) (State.powerOn n cfg) = .next { State.powerOn n cfg with
      results := [.status { escaped := false, bufLen := 0, qLen := 0, closed := false }] }) ∧
  State.reset.dfr = [{ esc := .normal, buf := [], q := [], closed := false }] ∧
  ∀ s i d, s.dfr[i]? = some d → ∃ t, exec (.rst i) s = .next t ∧ t.cfg = s.cfg ∧
    t.dfr[i]? = some { esc := .normal, buf := [], q := [], closed := false } ∧
    exec (.stat i) t = .next { t with
      results := t.results ++ [.status { escaped := false, bufLen := 0, qLen := 0, closed := false }] }

/-- The invariant holds at reset, and at power-on under every admitted configuration (R27, R151, R35). -/
def Obligations.InvariantHoldsAtReset : Prop :=
  State.reset.Inv ∧ ∀ n cfg, 1 ≤ n → cfg.Admitted → (State.powerOn n cfg).Inv

/-- Every step keeps the invariants of R27: queued frames are non-empty, a closed instance is Normal with an empty buffer, the
bounds hold; with them the admitted configuration, the instances, and the non-empty frames POP has returned (R99). -/
def Obligations.EveryStepKeepsInvariant : Prop :=
  ∀ s t : State, s.Inv → step s = .next t → t.Inv

/-- R30, R35: no step changes the configuration or the number of instances. That they stand in State is the model's choice (log
entry 5). -/
def Obligations.ConfigurationNeverChanges : Prop :=
  ∀ s t : State, step s = .next t → t.cfg = s.cfg ∧ t.dfr.length = s.dfr.length

/-! ### The step -/

/-- The oldest request, when its bytes decode, is run by exec with the request taken out; if it waits, the others are looked
at; with no request the core keeps its state (R19, R44, R150). The pending list and how it is gone through are the model's (log
entries 6, 7 and 17). -/
def Obligations.StepRunsDecodedRequest : Prop :=
  (∀ s r rest i, s.pending = r :: rest → decode r.message = .ok i →
    (∀ t, exec i { s with pending := rest } = .next t → step s = .next t ∧ t.pending = rest) ∧
    (∀ e, exec i { s with pending := rest } = .refused e → step s = .refused e) ∧
    (∀ f, exec i { s with pending := rest } = .fault f → step s = serve s [r] rest)) ∧
  (∀ s : State, s.pending = [] → step s = .next s)

/-- R137: the core never faults. A request that waits leaves the machine running (the model's reading, log entry 7). -/
def Obligations.StepNeverFaults : Prop :=
  ∀ (s : State) (f : Fault), step s ≠ .fault f

/-- A step performs a pending request that no earlier one must precede (an earlier one of its agent, R48, R51; earlier input to
the instance it brings input to, R46, R48), and the others stay pending in order; or it changes nothing, and then every request
that none must precede waits. That every request before the one performed waits, itself or behind one that must precede it, is
the model's choice, not R51's, which lets another agent's request go first: service in list order is log entry 6 (DESIGN CHOICE),
the waiting log entry 7, the order of one instance's input across agents log entry 17. -/
def Obligations.StepServesOldestOfAnAgent : Prop :=
  ∀ s t : State, step s = .next t →
    (t = s ∧ ∀ r ∈ heads [] s.pending, ∃ f, waitOf s r = some f) ∨
    ∃ before r after i, s.pending = before ++ r :: after ∧
      (∀ p ∈ before, p.agent ≠ r.agent ∧ ∀ inst, inputOf p = some inst → inputOf r ≠ some inst) ∧
      decode r.message = .ok i ∧ exec i { s with pending := before ++ after } = .next t ∧ t.pending = before ++ after ∧
      ∀ b p c, before = b ++ p :: c →
        (∃ j f, decode p.message = .ok j ∧ exec j s = .fault f) ∨ ∃ p' ∈ b, mustPrecede p' p = true

/-- A request that is held or stuck is not accepted (R46, R47, R99) and stays pending; it blocks its own agent, whose requests
keep their order (R48, R51), and, if it brings input to an instance, the later RXB and EOF of that instance (R46, R48); any other
request of another agent is served past it. The pending list, the blocking of the waiting request's agent for every reason of a
hold or a stuck request, and the order of one instance's input across agents are the model's reading (log entries 6, 7 and 17):
R46 says it of `BufferFull` and of the instance's transport. -/
def Obligations.WaitingRequestStaysPending : Prop :=
  ∀ s a b i j f, s.pending = [a, b] → decode a.message = .ok i → exec i s = .fault f → decode b.message = .ok j →
    (a.agent = b.agent → step s = .next s) ∧
    (∀ inst, transportInst i = some inst → transportInst j = some inst → step s = .next s) ∧
    (a.agent ≠ b.agent → (∀ inst, transportInst i = some inst → transportInst j ≠ some inst) →
      ∀ t, exec j { s with pending := [a] } = .next t → step s = .next t ∧ t.pending = [a])

/-! ### Encodings -/

/-- Words written out from R57, R63 to R65 and R71 decode to what they stand for. The operand bytes behind the op byte, and the
instance byte behind a key, are the model's layout (log entry 1), which R70 does not give. -/
def Obligations.SpecWordsDecode : Prop :=
  decode ⟨.op, [0x01, 0x00, 0xC0]⟩ = .ok (.rxb 0 0xC0) ∧
  decode ⟨.op, [0x02, 0x00]⟩ = .ok (.eof 0) ∧
  decode ⟨.op, [0x10, 0x00, 0xC0, 0x41]⟩ = .ok (.enc 0x00 [0xC0, 0x41]) ∧
  decode ⟨.op, [0x12, 0x0C, 0x00]⟩ = .ok (.typb 12 0) ∧
  decode ⟨.op, [0x31, 0x2F]⟩ = .ok (.cdec 0x2F) ∧
  decode ⟨.rxclass, [0xDB, 0x00, 0x00]⟩ = .ok (.nEsc 0) ∧
  decode ⟨.rxclass, [0x42, 0x01, 0x00]⟩ = .ok (.eViol 0 0x42) ∧
  decode ⟨.ctrl8, [0xA4]⟩ = .ok (.ctrlI 2 0 5) ∧
  decode ⟨.ctrl8, [0x3F]⟩ = .ok (.uSabm 1) ∧
  decode ⟨.pid8, [0xF0]⟩ = .ok .pidNoLayer3 ∧
  decode ⟨.op, [0x06]⟩ = .error .badOp

/-- Every well-formed instruction is read back from its own bytes, every operand included (R70, R71, R57, R63 to R65; the
operand layout is the model's choice, log entry 1). -/
def Obligations.DecodeOfEncodeIsTheInstruction : Prop :=
  ∀ i : Instr, i.wellFormed = true → decode (encode i) = .ok i

/-- Bytes that decode are the encoding of what they decode to, so no two messages stand for one instruction. R74 gives a request
one op code and a fixed list of operands; that only one spelling of the operands is read is the model's layout (log entry 1),
and that any other bytes are refused its choice (log entry 2). -/
def Obligations.EncodeOfDecodeIsTheMessage : Prop :=
  ∀ (m : Message) (i : Instr), decode m = .ok i → encode i = m

/-- R57: the 9-bit key of a received byte selects one row, and RXB does what that row does. That a row is an instruction of its
own is the model's choice (log entry 3). -/
def Obligations.RxbRunsTheRowOfItsKey : Prop :=
  ∀ s inst d b, s.dfr[inst]? = some d →
    ∃ row, decodeKey inst (BitVec.ofNat 9 ((if d.esc = .escaped then 256 else 0) + b.toNat)) = some row ∧
      exec (.rxb inst b) s = exec row s

/-- A row of the RXCLASS table presented where the key of its byte and the instance's escape state is another row's is refused:
the model's choice (log entry 3), which R57 leaves open. -/
def Obligations.RowRefusedWhereItsKeySelectsAnother : Prop :=
  ∀ s inst d, s.dfr[inst]? = some d →
    (d.esc = .escaped → exec (.nEsc inst) s = .refused .rowNotSelected ∧
      exec (.nDelim inst) s = .refused .rowNotSelected ∧ ∀ b, exec (.nData inst b) s = .refused .rowNotSelected) ∧
    (d.esc = .normal → exec (.eTesc inst) s = .refused .rowNotSelected ∧
      exec (.eTdelim inst) s = .refused .rowNotSelected ∧ ∀ b, exec (.eViol inst b) s = .refused .rowNotSelected) ∧
    (∀ b, b = 0xC0 ∨ b = 0xDB → exec (.nData inst b) s = .refused .rowNotSelected) ∧
    ∀ b, b = 0xDC ∨ b = 0xDD → exec (.eViol inst b) s = .refused .rowNotSelected

/-- R63, R64: a control byte selects one row of its table, and CDEC does what that row does. That a row is an instruction of its
own is the model's choice (log entry 3). -/
def Obligations.CdecRunsTheRowOfItsByte : Prop :=
  ∀ c s, ∃ row, decodeCtrl c = some row ∧ exec (.cdec c) s = exec row s

/-- R65: a protocol-ID byte selects one row of its table, and PDEC does what that row does. That a row is an instruction of its
own is the model's choice (log entry 3). -/
def Obligations.PdecRunsTheRowOfItsByte : Prop :=
  ∀ p s, ∃ row, decodePid p = some row ∧ exec (.pdec p) s = exec row s

/-! ### Refusals -/

/-- R72: an op byte outside the sixteen is no instruction, and an operation of the sixteen is refused exactly when an operand is
outside its domain, the instance does not exist or an SSID clamps to 16. `BadOp` is the reason R139 gives. That a step takes the
first pending request, whatever requests of other agents stand behind it, is the model's service in list order (log entry 6,
DESIGN CHOICE; R51 lets another agent's go first). Bytes behind a good op code that are not its operands are refused too, by the
model's own `malformed` (log entry 2), and are not spoken of here. -/
def Obligations.RefusedExactlyOutsideTheDomain : Prop :=
  (∀ op xs, op ∉ ([0x01, 0x02, 0x03, 0x04, 0x05, 0x10, 0x11, 0x12, 0x13, 0x20, 0x21, 0x30, 0x31, 0x32, 0x40, 0x50] : Bytes) →
    decode ⟨.op, op :: xs⟩ = .error .badOp ∧
    ∀ agent rest s, s.pending = ⟨agent, ⟨.op, op :: xs⟩⟩ :: rest → step s = .refused .badOp) ∧
  ∀ i s, (encode i).space = .op → ((∃ r, exec i s = .refused r) ↔ ¬ Admits s i)

/-- R72, R139: the reason of a refusal for the instance number, of TYPB, of SPLIT and of ADEC; those of AENC and UIB are
`AencChecksInOrder` and `UibChecksDestinationFirst`. R139 gives `BadInst` to RXB, EOF, POP, STAT and RST; that the RXCLASS rows
have it too is the model's choice (log entry 3). -/
def Obligations.RefusalReasons : Prop :=
  ∀ s : State,
    (∀ i inst, target i = some inst → s.dfr.length ≤ inst → exec i s = .refused .badInst) ∧
    (∀ port command, 15 < port ∨ 15 < command → exec (.typb port command) s = .refused .operandRange) ∧
    exec (.split []) s = .refused .emptyFrame ∧
    (∀ a, a.length ≠ 7 → exec (.adec a) s = .refused .notSevenBytes)

/-- R81, R140: the order of AENC's checks. -/
def Obligations.AencChecksInOrder : Prop :=
  ∀ s name ssid hi3 ext,
    ((∃ c ∈ name, 127 < c.toNat) → exec (.aenc name ssid hi3 ext) s = .refused .nameNot7Bit) ∧
    ((∀ c ∈ name, c.toNat ≤ 127) →
      (7 < hi3 ∨ 1 < ext → exec (.aenc name ssid hi3 ext) s = .refused .operandRange) ∧
      (hi3 ≤ 7 → ext ≤ 1 → s.cfg.ssidClampMax = .sixteen → 16 ≤ ssid →
        exec (.aenc name ssid hi3 ext) s = .refused .ssidSixteen))

/-- R140: UIB checks the whole destination address before the source address, under either SSID_CLAMP_MAX. -/
def Obligations.UibChecksDestinationFirst : Prop :=
  ∀ s sn ss dn ds payload padlen,
    ((∃ c ∈ dn, 127 < c.toNat) → exec (.uib sn ss dn ds payload padlen) s = .refused .nameNot7Bit) ∧
    ((∀ c ∈ dn, c.toNat ≤ 127) →
      (s.cfg.ssidClampMax = .sixteen → 16 ≤ ds →
        exec (.uib sn ss dn ds payload padlen) s = .refused .ssidSixteen) ∧
      (clampSsid s.cfg.ssidClampMax ds ≠ 16 →
        ((∃ c ∈ sn, 127 < c.toNat) → exec (.uib sn ss dn ds payload padlen) s = .refused .nameNot7Bit) ∧
        ((∀ c ∈ sn, c.toNat ≤ 127) → s.cfg.ssidClampMax = .sixteen → 16 ≤ ss →
          exec (.uib sn ss dn ds payload padlen) s = .refused .ssidSixteen)))

/-! ### The deframer, one byte at a time -/

/-- R92: an ESCAPE in Normal. -/
def Obligations.EscapeByteEntersEscaped : Prop :=
  ∀ s i d, s.dfr[i]? = some d → d.closed = false → d.esc = .normal →
    exec (.rxb i 0xDB) s = .next { s with dfr := s.dfr.set i { d with esc := .escaped } } ∧
    exec (.nEsc i) s = .next { s with dfr := s.dfr.set i { d with esc := .escaped } }

/-- R93: a DELIMITER in Normal, with room in the queue where it pushes. -/
def Obligations.DelimiterEndsTheFrame : Prop :=
  ∀ s i d, s.dfr[i]? = some d → d.closed = false → d.esc = .normal →
    (d.buf = [] → exec (.rxb i 0xC0) s = .next s ∧ exec (.nDelim i) s = .next s) ∧
    (d.buf ≠ [] → (∀ m, s.cfg.queueDepth = some m → d.q.length < m) →
      exec (.rxb i 0xC0) s = .next { s with dfr := s.dfr.set i { d with q := d.q ++ [d.buf], buf := [] } } ∧
      exec (.nDelim i) s = .next { s with dfr := s.dfr.set i { d with q := d.q ++ [d.buf], buf := [] } })

/-- R94: any other byte in Normal, with room in the buffer. -/
def Obligations.OrdinaryByteIsAppended : Prop :=
  ∀ s i d b, s.dfr[i]? = some d → d.closed = false → d.esc = .normal → b ≠ 0xC0 → b ≠ 0xDB →
    (∀ m, s.cfg.maxFrameBytes = some m → d.buf.length < m) →
    exec (.rxb i b) s = .next { s with dfr := s.dfr.set i { d with buf := d.buf ++ [b] } } ∧
    exec (.nData i b) s = .next { s with dfr := s.dfr.set i { d with buf := d.buf ++ [b] } }

/-- R95: a TRANS_ESCAPE in Escaped, with room in the buffer. -/
def Obligations.TransEscapeAppendsEscape : Prop :=
  ∀ s i d, s.dfr[i]? = some d → d.closed = false → d.esc = .escaped →
    (∀ m, s.cfg.maxFrameBytes = some m → d.buf.length < m) →
    exec (.rxb i 0xDD) s = .next { s with dfr := s.dfr.set i { d with buf := d.buf ++ [0xDB], esc := .normal } } ∧
    exec (.eTesc i) s = .next { s with dfr := s.dfr.set i { d with buf := d.buf ++ [0xDB], esc := .normal } }

/-- R96: a TRANS_DELIMITER in Escaped, with room in the buffer. -/
def Obligations.TransDelimiterAppendsDelimiter : Prop :=
  ∀ s i d, s.dfr[i]? = some d → d.closed = false → d.esc = .escaped →
    (∀ m, s.cfg.maxFrameBytes = some m → d.buf.length < m) →
    exec (.rxb i 0xDC) s = .next { s with dfr := s.dfr.set i { d with buf := d.buf ++ [0xC0], esc := .normal } } ∧
    exec (.eTdelim i) s = .next { s with dfr := s.dfr.set i { d with buf := d.buf ++ [0xC0], esc := .normal } }

/-- R97: any other byte in Escaped drops the frame in progress and is consumed, 0xC0 and 0xDB included. -/
def Obligations.ViolationDropsTheFrame : Prop :=
  ∀ s i d b, s.dfr[i]? = some d → d.closed = false → d.esc = .escaped → b ≠ 0xDC → b ≠ 0xDD →
    exec (.rxb i b) s = .next { s with dfr := s.dfr.set i { d with buf := [], esc := .normal } } ∧
    exec (.eViol i b) s = .next { s with dfr := s.dfr.set i { d with buf := [], esc := .normal } }

/-- R22: after an accepted byte an instance is Escaped exactly when the byte was ESCAPE received in Normal. -/
def Obligations.EscapedExactlyAfterEscape : Prop :=
  ∀ s t i d b, s.dfr[i]? = some d → exec (.rxb i b) s = .next t →
    ∃ d', t.dfr[i]? = some d' ∧ (d'.esc = .escaped ↔ d.esc = .normal ∧ b = 0xDB)

/-- R46: at the buffer bound every appending byte is stuck, and only such a byte; POP, STAT and RST are not (POP where the
queue holds a frame). R46 and R91 test for equality with the bound: that a longer buffer is stuck too is the model's reading
(log entry 11, DEDUCED). -/
def Obligations.FullBufferIsStuck : Prop :=
  ∀ s i d, s.dfr[i]? = some d →
    (∀ b, exec (.rxb i b) s = .fault .stuckBufferFull ↔
      d.closed = false ∧ (∃ m, s.cfg.maxFrameBytes = some m ∧ m ≤ d.buf.length) ∧
      ((d.esc = .normal ∧ b ≠ 0xC0 ∧ b ≠ 0xDB) ∨ (d.esc = .escaped ∧ (b = 0xDC ∨ b = 0xDD)))) ∧
    (∃ t, exec (.stat i) s = .next t) ∧ (∃ t, exec (.rst i) s = .next t) ∧ (d.q ≠ [] → ∃ t, exec (.pop i) s = .next t)

/-- R47: a byte that would push is held exactly while the queue is at its bound, and a POP makes room for it. R47 and R91 test
for equality with the bound: that a longer queue holds too is the model's reading (log entry 11, DEDUCED). -/
def Obligations.FullQueueHolds : Prop :=
  ∀ s i d, s.dfr[i]? = some d →
    (∀ b, exec (.rxb i b) s = .fault .holdQueueFull ↔
      d.closed = false ∧ d.esc = .normal ∧ b = 0xC0 ∧ d.buf ≠ [] ∧
      ∃ m, s.cfg.queueDepth = some m ∧ m ≤ d.q.length) ∧
    (∀ m t, d.closed = false → d.esc = .normal → d.buf ≠ [] → s.cfg.queueDepth = some m → d.q.length = m →
      exec (.pop i) s = .next t → exec (.rxb i 0xC0) t =
        .next { t with dfr := t.dfr.set i { d with q := d.q.tail ++ [d.buf], buf := [] } })

/-! ### Closure, consumption, status, reset -/

/-- R98: EOF on an open and on a closed instance, and what a closed instance accepts. -/
def Obligations.EofClosesTheInstance : Prop :=
  ∀ s i d, s.dfr[i]? = some d →
    (d.closed = false →
      exec (.eof i) s = .next { s with dfr := s.dfr.set i { esc := .normal, buf := [], q := d.q, closed := true } }) ∧
    (d.closed = true → exec (.eof i) s = .fault .stuckClosed ∧ (∀ b, exec (.rxb i b) s = .fault .stuckClosed) ∧
      (d.q ≠ [] → ∃ t, exec (.pop i) s = .next t) ∧ (∃ t, exec (.stat i) s = .next t) ∧ ∃ t, exec (.rst i) s = .next t)

/-- R99: POP returns and removes the oldest frame, holds on an empty open instance and is stuck on an empty closed one. -/
def Obligations.PopTakesTheOldestFrame : Prop :=
  (∀ (s : State) i, s.dfr.length ≤ i → exec (.pop i) s = .refused .badInst) ∧
  ∀ s i d, s.dfr[i]? = some d →
    (∀ f rest, d.q = f :: rest → exec (.pop i) s =
      .next { s with dfr := s.dfr.set i { d with q := rest }, results := s.results ++ [.frame f] }) ∧
    (d.q = [] → d.closed = false → exec (.pop i) s = .fault .holdQueueEmpty) ∧
    (d.q = [] → d.closed = true → exec (.pop i) s = .fault .stuckClosedEmpty)

/-- R31, R100: STAT returns the status view in every state and writes nothing. -/
def Obligations.StatReturnsTheView : Prop :=
  (∀ (s : State) i, s.dfr.length ≤ i → exec (.stat i) s = .refused .badInst) ∧
  ∀ s i d, s.dfr[i]? = some d → exec (.stat i) s = .next { s with results := s.results ++ [.status
    { escaped := d.esc = .escaped, bufLen := d.buf.length, qLen := d.q.length, closed := d.closed }] }

/-- R101, R152: RST resets its instance in every state and leaves every other as it was; two in a row equal one. -/
def Obligations.RstResetsItsInstance : Prop :=
  ∀ s i d, s.dfr[i]? = some d → ∃ t,
    t = { s with dfr := s.dfr.set i { esc := .normal, buf := [], q := [], closed := false } } ∧
    exec (.rst i) s = .next t ∧ exec (.rst i) t = .next t ∧ ∀ j, j ≠ i → t.dfr[j]? = s.dfr[j]?

/-! ### Laws of the deframer -/

/-- R102: with the default bounds every byte of a run is accepted, and any split into chunks reaches the same state. -/
def Obligations.ChunkingDoesNotMatter : Prop :=
  ∀ s i d, OpenUnbounded s i d →
    (∀ xs, ∃ t, rxs i xs s = .next t) ∧
    (∀ xs ys, rxs i (xs ++ ys) s = match rxs i xs s with
      | .next t => rxs i ys t
      | .fault f => .fault f
      | .refused r => .refused r)

/-- R103: a delimiter in Normal leaves Normal and an empty buffer, and what follows is framed as from reset, apart from what
is already in the queue. -/
def Obligations.NoDriftAfterDelimiter : Prop :=
  ∀ s i d, OpenUnbounded s i d → d.esc = .normal →
    ∃ u, exec (.rxb i 0xC0) s = .next u ∧ ∃ d', u.dfr[i]? = some d' ∧ d'.esc = .normal ∧ d'.buf = [] ∧
      ∀ xs, ∃ t r e, rxs i xs u = .next t ∧
        rxs i xs { u with dfr := u.dfr.set i { esc := .normal, buf := [], q := [], closed := false } } = .next r ∧
        r.dfr[i]? = some e ∧ t = { u with dfr := u.dfr.set i { e with q := d'.q ++ e.q } }

/-- R109: a frame that ENC encodes is recovered, from any open instance, for every type byte but 0xC0 and 0xDB. -/
def Obligations.DeframeRecoversTheFrame : Prop :=
  ∀ s i d k body, OpenUnbounded s i d → k ≠ 0xC0 → k ≠ 0xDB →
    ∃ wire, (∀ u, exec (.enc k body) u = .next { u with results := u.results ++ [.bytes wire] }) ∧
      rxs i wire s = .next { s with dfr := s.dfr.set i { d with esc := .normal, buf := [], q :=
        d.q ++ (if d.esc = .normal ∧ d.buf ≠ [] then [d.buf] else []) ++ [k :: body] } } ∧
      ∀ u, exec (.split (k :: body)) u = .next { u with results := u.results ++ [.split
        { type := k, port := (k >>> 4).setWidth 4, command := k.setWidth 4, body := body }] }

/-- R156: what is recovered when the type byte is 0xC0 or 0xDB, from an instance between frames. -/
def Obligations.TypeByteHazard : Prop :=
  ∀ s i d body, OpenUnbounded s i d → d.esc = .normal → d.buf = [] →
    (∃ wire, (∀ u, exec (.enc 0xC0 body) u = .next { u with results := u.results ++ [.bytes wire] }) ∧
      rxs i wire s = .next { s with dfr := s.dfr.set i { d with q := d.q ++ (if body = [] then [] else [body]) } }) ∧
    ∃ wire, (∀ u, exec (.enc 0xDB body) u = .next { u with results := u.results ++ [.bytes wire] }) ∧
      rxs i wire s = .next { s with dfr := s.dfr.set i { d with q := d.q ++ (match body with
        | [] => []
        | b :: rest =>
          if b = 0xDC then [0xC0 :: rest] else if b = 0xDD then [0xDB :: rest]
          else if b = 0xC0 then [0xDC :: rest] else if b = 0xDB then [0xDD :: rest]
          else if rest = [] then [] else [rest]) } }

/-! ### The encoder -/

/-- R104: ESC's output, that it holds no delimiter, its length, and what follows every ESCAPE in it. -/
def Obligations.EscEscapesEveryByte : Prop :=
  ∀ xs : Bytes, ∃ ys : Bytes, (∀ s, exec (.esc xs) s = .next { s with results := s.results ++ [.bytes ys] }) ∧
    ys = (xs.map fun b => if b = 0xC0 then [0xDB, 0xDC] else if b = 0xDB then [0xDB, 0xDD] else [b]).flatten ∧
    0xC0 ∉ ys ∧ ys.length = xs.length + xs.count 0xC0 + xs.count 0xDB ∧
    ∀ k : Nat, ys[k]? = some (0xDB : Byte) → ys[k + 1]? = some (0xDC : Byte) ∨ ys[k + 1]? = some (0xDD : Byte)

/-- R105: ENC's wire frame around ESC's output, and how many delimiters it holds. -/
def Obligations.EncBuildsTheWireFrame : Prop :=
  ∀ k body, ∃ ys : Bytes, (∀ s, exec (.esc body) s = .next { s with results := s.results ++ [.bytes ys] }) ∧
    (∀ s, exec (.enc k body) s = .next { s with results := s.results ++ [.bytes ([0xC0, k] ++ ys ++ [0xC0])] }) ∧
    ([0xC0, k] ++ ys ++ [0xC0] : Bytes).count 0xC0 = if k = 0xC0 then 3 else 2

/-- R106: TYPB's byte, of value 16 times the port plus the command, and when TYPB is refused. -/
def Obligations.TypbComposesTheTypeByte : Prop :=
  ∀ port command,
    (port ≤ 15 → command ≤ 15 → ∃ b : Byte, b.toNat = 16 * port + command ∧
      ∀ s, exec (.typb port command) s = .next { s with results := s.results ++ [.byte b] }) ∧
    (15 < port ∨ 15 < command → ∀ s, exec (.typb port command) s = .refused .operandRange)

/-- R107: SPLIT's record of a non-empty frame, and the refusal of an empty one. -/
def Obligations.SplitStripsTheTypeByte : Prop :=
  (∀ s, exec (.split []) s = .refused .emptyFrame) ∧
  ∀ k body, ∃ r : Machine.Split, r.type = k ∧ r.port.toNat = k.toNat / 16 ∧ r.command.toNat = k.toNat % 16 ∧ r.body = body ∧
    ∀ s, exec (.split (k :: body)) s = .next { s with results := s.results ++ [.split r] }

/-! ### Addresses -/

/-- R81 to R85: AENC's seven bytes, for every admitted operand. -/
def Obligations.AencBuildsTheEntry : Prop :=
  ∀ s name ssid hi3 ext, (∀ c ∈ name, c.toNat ≤ 127) → hi3 ≤ 7 → ext ≤ 1 →
    (s.cfg.ssidClampMax = .sixteen → ssid < 16) →
    ∃ ys, exec (.aenc name ssid hi3 ext) s = .next { s with results := s.results ++ [.bytes ys] } ∧ ys.length = 7 ∧
      (∀ k, k < 6 → ∃ b, ys[k]? = some b ∧ b.toNat = 2 * (match name[k]? with
        | none => 0x20
        | some c => if 0x61 ≤ c.toNat ∧ c.toNat ≤ 0x7A then c.toNat - 0x20 else c.toNat)) ∧
      ∃ b, ys[6]? = some b ∧ b.toNat = 32 * hi3 + 2 * (min (max ssid 0) 15).toNat + ext

/-- R86 to R88: ADEC's record of any seven bytes, and the refusal of any other length. -/
def Obligations.AdecReadsTheEntry : Prop :=
  (∀ a s, a.length ≠ 7 → exec (.adec a) s = .refused .notSevenBytes) ∧
  ∀ chars c6, chars.length = 6 → ∃ a : AddrDecoded,
    (∀ s, exec (.adec (chars ++ [c6])) s = .next { s with results := s.results ++ [.addr a] }) ∧
    a.raw = chars ++ [c6] ∧ a.ssid.toNat = c6.toNat / 2 % 16 ∧ a.cr.toNat = c6.toNat / 128 ∧ a.ext.toNat = c6.toNat % 2 ∧
    a.rr.toNat = c6.toNat / 32 % 4 ∧
    ∃ pads : Bytes, (∀ c ∈ pads, c = 0x20 ∨ c = 0x00) ∧ chars.map (fun c : Byte => c >>> 1) = a.name ++ pads ∧
      ∀ c, a.name.getLast? = some c → c ≠ 0x20 ∧ c ≠ 0x00

/-- R89: decoding an encoded address gives it back, for names of 1 to 6 characters A to Z, 0 to 9, for the empty name, and
SSIDs 0 to 15. -/
def Obligations.AddressRoundTrip : Prop :=
  ∀ s name (ssid : Nat) hi3 ext, CallName name ∨ name = [] → ssid ≤ 15 → hi3 ≤ 7 → ext ≤ 1 →
    ∃ ys, exec (.aenc name ssid hi3 ext) s = .next { s with results := s.results ++ [.bytes ys] } ∧
      ∃ a : AddrDecoded, (∀ u, exec (.adec ys) u = .next { u with results := u.results ++ [.addr a] }) ∧
        a.name = name ∧ a.ssid.toNat = ssid ∧ a.cr.toNat = hi3 / 4 ∧ a.rr.toNat = hi3 % 4 ∧ a.ext.toNat = ext

/-! ### The header decoder -/

/-- R115, R117 to R119, R64: the frame type of every control byte. -/
def Obligations.CdecClassifiesEveryByte : Prop :=
  ∀ (c : Byte) (s : State), ∃ t, exec (.cdec c) s = .next { s with results := s.results ++ [.frameType t] } ∧
    (c.toNat % 2 = 0 → t = .i ((c >>> 1).setWidth 3) ((c >>> 4).setWidth 1) ((c >>> 5).setWidth 3)) ∧
    (c.toNat % 4 = 1 → t = .s ((c >>> 5).setWidth 3)) ∧
    (c.toNat % 4 = 3 → t = .u ((([(0x6F, .sabme), (0x2F, .sabm), (0x43, .disc), (0x0F, .dm), (0x63, .ua), (0x87, .frmr),
      (0x03, .ui), (0xAF, .xid), (0xE3, .test)] : List (Byte × USub)).lookup (c &&& 0xEF)).getD .unknown))

/-- R121, R122, R65: the kind of every protocol-ID byte. -/
def Obligations.PdecMapsEveryByte : Prop :=
  ∀ (p : Byte) (s : State), exec (.pdec p) s = .next { s with results := s.results ++ [.pidKind ((([(0x01, .iso8208),
    (0x06, .compressedTcpip), (0x07, .uncompressedTcpip), (0x08, .segmentationFragment), (0xC3, .texnet), (0xC4, .linkQuality),
    (0xCA, .appletalk), (0xCC, .arpaIp), (0xCD, .arpaArp), (0xCF, .netrom), (0xF0, .noLayer3), (0xFF, .escape)] :
    List (Byte × PidKind)).lookup p).getD .unknown)] }

/-- R117 to R119, R64: what each row of the control-byte table gives. That a row is an instruction of its own, and the last clause,
that U_Unknown with a named row's value is refused, are the model's choice (log entry 3, DESIGN CHOICE). -/
def Obligations.CtrlRowsGiveTheirFrameType : Prop :=
  ∀ s : State,
    (∀ ns pf nr, exec (.ctrlI ns pf nr) s = .next { s with results := s.results ++ [.frameType (.i ns pf nr)] }) ∧
    (∀ nr x, exec (.ctrlS nr x) s = .next { s with results := s.results ++ [.frameType (.s nr)] }) ∧
    (∀ p, exec (.uSabme p) s = .next { s with results := s.results ++ [.frameType (.u .sabme)] }) ∧
    (∀ p, exec (.uSabm p) s = .next { s with results := s.results ++ [.frameType (.u .sabm)] }) ∧
    (∀ p, exec (.uDisc p) s = .next { s with results := s.results ++ [.frameType (.u .disc)] }) ∧
    (∀ p, exec (.uDm p) s = .next { s with results := s.results ++ [.frameType (.u .dm)] }) ∧
    (∀ p, exec (.uUa p) s = .next { s with results := s.results ++ [.frameType (.u .ua)] }) ∧
    (∀ p, exec (.uFrmr p) s = .next { s with results := s.results ++ [.frameType (.u .frmr)] }) ∧
    (∀ p, exec (.uUi p) s = .next { s with results := s.results ++ [.frameType (.u .ui)] }) ∧
    (∀ p, exec (.uXid p) s = .next { s with results := s.results ++ [.frameType (.u .xid)] }) ∧
    (∀ p, exec (.uTest p) s = .next { s with results := s.results ++ [.frameType (.u .test)] }) ∧
    (∀ x, (Instr.uUnknown x).wellFormed = true →
      exec (.uUnknown x) s = .next { s with results := s.results ++ [.frameType (.u .unknown)] }) ∧
    (∀ x, (Instr.uUnknown x).wellFormed = false → exec (.uUnknown x) s = .refused .rowNotSelected)

/-- R121, R122: what each row of the protocol-ID table gives. That a row is an instruction of its own, and the last clause, that
PID_Unknown with a named row's byte is refused, are the model's choice (log entry 3, DESIGN CHOICE). -/
def Obligations.PidRowsGiveTheirKind : Prop :=
  ∀ s : State,
    exec .pidIso8208 s = .next { s with results := s.results ++ [.pidKind .iso8208] } ∧
    exec .pidCompressedTcpip s = .next { s with results := s.results ++ [.pidKind .compressedTcpip] } ∧
    exec .pidUncompressedTcpip s = .next { s with results := s.results ++ [.pidKind .uncompressedTcpip] } ∧
    exec .pidSegmentationFragment s = .next { s with results := s.results ++ [.pidKind .segmentationFragment] } ∧
    exec .pidTexnet s = .next { s with results := s.results ++ [.pidKind .texnet] } ∧
    exec .pidLinkQuality s = .next { s with results := s.results ++ [.pidKind .linkQuality] } ∧
    exec .pidAppletalk s = .next { s with results := s.results ++ [.pidKind .appletalk] } ∧
    exec .pidArpaIp s = .next { s with results := s.results ++ [.pidKind .arpaIp] } ∧
    exec .pidArpaArp s = .next { s with results := s.results ++ [.pidKind .arpaArp] } ∧
    exec .pidNetrom s = .next { s with results := s.results ++ [.pidKind .netrom] } ∧
    exec .pidNoLayer3 s = .next { s with results := s.results ++ [.pidKind .noLayer3] } ∧
    exec .pidEscape s = .next { s with results := s.results ++ [.pidKind .escape] } ∧
    (∀ p, (Instr.pidUnknown p).wellFormed = true →
      exec (.pidUnknown p) s = .next { s with results := s.results ++ [.pidKind .unknown] }) ∧
    (∀ p, (Instr.pidUnknown p).wellFormed = false → exec (.pidUnknown p) s = .refused .rowNotSelected)

/-- R123 to R125, R127: HDEC returns a header for every body, accounts for every byte once, its payload is the end of the
body, and its chain is no longer than the body allows. -/
def Obligations.HdecAccountsForEveryByte : Prop :=
  ∀ body, ∃ h : Header, (∀ s, exec (.hdec body) s = .next { s with results := s.results ++ [.header h] }) ∧
    7 * h.chain.length + h.control.toList.length + h.pid.toList.length + h.payload.length = body.length ∧
    h.payload = body.drop (body.length - h.payload.length) ∧ h.chain.length ≤ body.length / 7 ∧
    (h.control = none ↔ h.ftype = none) ∧ (h.complete = false → h.control = none ∧ h.pid = none)

/-- R112, R113: the walk decodes every group with its role as ADEC does, up to the first whose extension flag is 1; when fewer
than seven bytes remain before one, the chain is incomplete, no control byte is read and what is left is the payload. -/
def Obligations.WalkDecodesEveryGroup : Prop :=
  (∀ gs g tail, CompleteChain gs g → ∃ h : Header,
    (∀ s, exec (.hdec (gs.flatten ++ g ++ tail)) s = .next { s with results := s.results ++ [.header h] }) ∧
    h.complete = true ∧ h.chain.length = gs.length + 1 ∧
    ∀ n a, (gs ++ [g])[n]? = some a → ∃ e, h.chain[n]? = some e ∧
      e.role = (if n = 0 then .destination else if n = 1 then .source else .via (n - 1)) ∧
      ∀ s, exec (.adec a) s = .next { s with results := s.results ++ [.addr e.addr] }) ∧
  (∀ (gs : List Bytes) tail, (∀ a ∈ gs, IsGroup false a) → tail.length < 7 → ∃ h : Header,
    (∀ s, exec (.hdec (gs.flatten ++ tail)) s = .next { s with results := s.results ++ [.header h] }) ∧
    h.complete = false ∧ h.control = none ∧ h.ftype = none ∧ h.pid = none ∧ h.payload = tail ∧
    h.chain.length = gs.length ∧
    ∀ n a, gs[n]? = some a → ∃ e, h.chain[n]? = some e ∧
      e.role = (if n = 0 then .destination else if n = 1 then .source else .via (n - 1)) ∧
      ∀ s, exec (.adec a) s = .next { s with results := s.results ++ [.addr e.addr] })

/-- R114, R120: after a complete chain the next byte is the control byte, classified as CDEC does; a protocol ID is read exactly
for I and UI frames that have a byte left, and the rest is the payload. -/
def Obligations.ControlAndPidPresence : Prop :=
  ∀ gs g, CompleteChain gs g →
    (∃ h : Header, (∀ s, exec (.hdec (gs.flatten ++ g)) s = .next { s with results := s.results ++ [.header h] }) ∧
      h.complete = true ∧ h.control = none ∧ h.ftype = none ∧ h.pid = none ∧ h.payload = []) ∧
    ∀ c rest, ∃ (h : Header) (ft : FrameType),
      (∀ s, exec (.hdec (gs.flatten ++ g ++ c :: rest)) s = .next { s with results := s.results ++ [.header h] }) ∧
      (∀ s, exec (.cdec c) s = .next { s with results := s.results ++ [.frameType ft] }) ∧
      h.complete = true ∧ h.control = some c ∧ h.ftype = some ft ∧
      ((c.toNat % 2 = 0 ∨ ft = .u .ui) →
        (rest = [] → h.pid = none ∧ h.payload = []) ∧
        ∀ p ps, rest = p :: ps → ∃ kind, h.pid = some ⟨p, kind⟩ ∧ h.payload = ps ∧
          ∀ s, exec (.pdec p) s = .next { s with results := s.results ++ [.pidKind kind] }) ∧
      (¬ (c.toNat % 2 = 0 ∨ ft = .u .ui) → h.pid = none ∧ h.payload = rest)

/-- R129: a chain of two entries stops after the Source, one of three after the single Via hop, and the control byte is the
byte at index 14 or 21, if there is one. -/
def Obligations.ChainTermination : Prop :=
  (∀ a b rest, IsGroup false a → IsGroup true b → ∃ h : Header,
    (∀ s, exec (.hdec (a ++ b ++ rest)) s = .next { s with results := s.results ++ [.header h] }) ∧
    h.chain.map (fun e => e.role) = [.destination, .source] ∧ h.complete = true ∧ h.control = (a ++ b ++ rest)[14]?) ∧
  (∀ a b c rest, IsGroup false a → IsGroup false b → IsGroup true c → ∃ h : Header,
    (∀ s, exec (.hdec (a ++ b ++ c ++ rest)) s = .next { s with results := s.results ++ [.header h] }) ∧
    h.chain.map (fun e => e.role) = [.destination, .source, .via 1] ∧ h.complete = true ∧
    h.control = (a ++ b ++ c ++ rest)[21]?)

/-! ### The UI builder and the checksum unit -/

/-- R131 to R133, R135: UIB's body is AENC's two entries under the configured patterns, control 0x03, protocol ID 0xF0, the
payload and the filler, whose bytes are any values in 0x20..0x7E. The draw counter is the model's own (log entry 9). -/
def Obligations.UibBuildsTheBody : Prop :=
  ∀ s sn ss dn ds (payload : Bytes) (padlen : Int), (∀ c ∈ sn, c.toNat ≤ 127) → (∀ c ∈ dn, c.toNat ≤ 127) →
    (s.cfg.ssidClampMax = .sixteen → ss < 16 ∧ ds < 16) →
    ∃ d7 s7 fill : Bytes,
      exec (.aenc dn ds s.cfg.dstHi3.toNat 0) s = .next { s with results := s.results ++ [.bytes d7] } ∧
      exec (.aenc sn ss s.cfg.srcHi3.toNat 1) s = .next { s with results := s.results ++ [.bytes s7] } ∧
      (fill.length : Int) = max 0 (padlen - payload.length) ∧ (∀ b ∈ fill, 0x20 ≤ b.toNat ∧ b.toNat ≤ 0x7E) ∧
      exec (.uib sn ss dn ds payload padlen) s = .next { s with
        results := s.results ++ [.bytes (d7 ++ s7 ++ [0x03, 0xF0] ++ payload ++ fill)], draws := s.draws + fill.length } ∧
      ((d7 ++ s7 ++ [0x03, 0xF0] ++ payload ++ fill).length : Int) =
        16 + payload.length + max 0 (padlen - payload.length)

/-- R130: HDEC of a built body gives back both addresses, a UI frame without layer 3, and the payload followed by the filler,
for names of 1 to 6 characters A to Z, 0 to 9 and SSIDs 0 to 15. -/
def Obligations.DecoderReadsWhatTheBuilderBuilds : Prop :=
  ∀ s sn (ss : Nat) dn (ds : Nat) (payload : Bytes) (padlen : Int), CallName sn → CallName dn → ss ≤ 15 → ds ≤ 15 →
    ∃ body fill : Bytes, ∃ a b : AddrDecoded, (fill.length : Int) = max 0 (padlen - payload.length) ∧
      (∃ t, exec (.uib sn ss dn ds payload padlen) s = .next t ∧ t.results = s.results ++ [.bytes body]) ∧
      (∀ u, exec (.hdec body) u = .next { u with results := u.results ++ [.header
        { chain := [⟨.destination, a⟩, ⟨.source, b⟩], complete := true, control := some 0x03, ftype := some (.u .ui),
          pid := some ⟨0xF0, .noLayer3⟩, payload := payload ++ fill }] }) ∧
      a.name = dn ∧ a.ssid.toNat = ds ∧ b.name = sn ∧ b.ssid.toNat = ss

/-- R77, R78: CKS returns the checksum parameter's value of its bytes. -/
def Obligations.CksAppliesTheChecksum : Prop :=
  ∀ xs s, exec (.cks xs) s = .next { s with results := s.results ++ [.checksum (Config.checksum xs)] }

/-! ### Frames and independence -/

/-- R34, R37: what an operation on one instance leaves unchanged. The last case is RXB and its rows. -/
def Obligations.DeframerFrame : Prop :=
  ∀ s t i inst, target i = some inst → exec i s = .next t →
    t.cfg = s.cfg ∧ t.pending = s.pending ∧ t.draws = s.draws ∧ t.dfr.length = s.dfr.length ∧
    (∀ j, j ≠ inst → t.dfr[j]? = s.dfr[j]?) ∧
    ∃ d d', s.dfr[inst]? = some d ∧ t.dfr[inst]? = some d' ∧
      match i with
      | .eof _ => d'.q = d.q ∧ t.results = s.results
      | .pop _ => d'.esc = d.esc ∧ d'.buf = d.buf ∧ d'.closed = d.closed ∧ ∃ f, t.results = s.results ++ [.frame f]
      | .stat _ => d' = d ∧ ∃ st, t.results = s.results ++ [.status st]
      | .rst _ => t.results = s.results
      | _ => d'.closed = d.closed ∧ t.results = s.results ∧ ∃ fs, d'.q = d.q ++ fs

/-- R37, R45: an operation of a stateless unit writes no instance and returns one result; UIB alone also counts its draws
(the counter is the model's own, log entry 9). -/
def Obligations.StatelessFrame : Prop :=
  ∀ s t i, target i = none → exec i s = .next t →
    (∃ r, t = { s with results := s.results ++ [r], draws := t.draws }) ∧
    ((∀ sn ss dn ds payload padlen, i ≠ .uib sn ss dn ds payload padlen) → t.draws = s.draws)

/-- R20, R45, R126: an operation of a stateless unit other than UIB gives the same result in every state. -/
def Obligations.StatelessResultsDoNotDependOnState : Prop :=
  ∀ s u t i, target i = none → (∀ sn ss dn ds payload padlen, i ≠ .uib sn ss dn ds payload padlen) → s.cfg = u.cfg →
    exec i s = .next t → ∃ r, t = { s with results := s.results ++ [r] } ∧
      exec i u = .next { u with results := u.results ++ [r] }

/-- R34, R51: operations that do not name the same instance commute on the instances. -/
def Obligations.OtherInstancesCommute : Prop :=
  ∀ s t u i j, (∀ inst, target i = some inst → target j ≠ some inst) → exec i s = .next t → exec j s = .next u →
    ∃ v w, exec j t = .next v ∧ exec i u = .next w ∧ v.dfr = w.dfr ∧ v.cfg = w.cfg

/-- R49: frames leave an instance in the order they were pushed, none lost or doubled, by every operation but RST. -/
def Obligations.FramesLeaveInOrder : Prop :=
  ∀ s t i inst d, target i = some inst → i ≠ .rst inst → s.dfr[inst]? = some d → exec i s = .next t →
    ∃ d' pushed popped, t.dfr[inst]? = some d' ∧ d.q ++ pushed = popped ++ d'.q ∧
      t.results.filterMap (fun r => match r with | .frame f => some f | _ => none) =
        s.results.filterMap (fun r => match r with | .frame f => some f | _ => none) ++ popped

/-- R46, R139, R155: after RST every byte and EOF are accepted, so a request that was stuck on `Closed` or `BufferFull` is; and
nothing else ends `BufferFull`: the first pending input to an instance, stuck on it, is pending and stuck on it after every step
but an RST of that instance. That input of other agents to the instance stays behind it is the model's reading of R46 and R48 (log
entry 17); the pending list is log entry 6. -/
def Obligations.RstEndsTheStuckCondition : Prop :=
  (∀ s i d, s.dfr[i]? = some d → s.cfg.maxFrameBytes ≠ some 0 →
    ∃ t, exec (.rst i) s = .next t ∧ (∀ b, ∃ u, exec (.rxb i b) t = .next u) ∧ (∃ u, exec (.eof i) t = .next u) ∧
      exec (.pop i) t = .fault .holdQueueEmpty) ∧
  ∀ s t before r after j i, s.pending = before ++ r :: after → decode r.message = .ok j → transportInst j = some i →
    (∀ p ∈ before, inputOf p ≠ some i) → exec j s = .fault .stuckBufferFull → step s = .next t →
    (∃ b c, t.pending = b ++ r :: c ∧ (∀ p ∈ b, p ∈ before) ∧ exec j t = .fault .stuckBufferFull) ∨
    ∃ p, decode p.message = .ok (.rst i) ∧ p ∈ before ++ after ∧ exec (.rst i) { s with pending := t.pending } = .next t
end

