-- ==== Sys2Proof/Laws/Address.lean ====
section
/-! SUPPORT. What the address encoder can do, and the shape of its seven bytes. -/

namespace Sys2Proof.Machine

theorem isName_iff {name : Bytes} : isName name = true ↔ ∀ c ∈ name, c.toNat ≤ 127 := by
  simp [isName]

theorem clampSsid_fifteen (ssid : Int) : clampSsid .fifteen ssid = (min (max ssid 0) 15).toNat := rfl

theorem clampSsid_le (m : ClampMax) (ssid : Int) : clampSsid m ssid ≤ 16 := by
  cases m <;> simp only [clampSsid, clampBound] <;> omega

/-- Below 16 the two clamps agree. -/
theorem clampSsid_eq {m : ClampMax} {ssid : Int} (h : m = .sixteen → ssid < 16) :
    clampSsid m ssid = (min (max ssid 0) 15).toNat := by
  cases m
  · rfl
  · have := h rfl
    simp only [clampSsid, clampBound]; omega

theorem sixChars_length (name : Bytes) : (sixChars name).length = 6 := by
  simp [sixChars]

/-- On admitted operands the encoder gives the entry of R85. -/
theorem encodeAddr_ok {m : ClampMax} {name : Bytes} {ssid : Int} {hi3 ext : Nat} (hn : ∀ c ∈ name, c.toNat ≤ 127)
    (hh : hi3 ≤ 7) (he : ext ≤ 1) (hs : m = .sixteen → ssid < 16) :
    encodeAddr m name ssid hi3 ext =
      .ok ((sixChars name).map (fun c : Byte => c <<< 1) ++ [packSsid hi3 (min (max ssid 0) 15).toNat ext]) := by
  have h1 : isName name = true := isName_iff.mpr hn
  have h2 : ¬ (7 < hi3 ∨ 1 < ext) := by omega
  have h3 : ¬ (min (max ssid 0) 15).toNat = 16 := by omega
  simp [encodeAddr, h1, clampSsid_eq hs, h3, Nat.not_lt.mpr hh, Nat.not_lt.mpr he]

/-- The seven bytes have the fields of R61: the SSID byte is 32 times hi3, twice the SSID and the extension flag. -/
theorem packSsid_toNat {hi3 s ext : Nat} (hh : hi3 ≤ 7) (hs : s ≤ 15) (he : ext ≤ 1) :
    (packSsid hi3 s ext).toNat = 32 * hi3 + 2 * s + ext := by
  have key : ∀ (a : Fin 8) (b : Fin 16) (c : Fin 2), (packSsid a b c).toNat = 32 * a + 2 * b + c := by decide
  exact key ⟨hi3, by omega⟩ ⟨s, by omega⟩ ⟨ext, by omega⟩

/-- Trimming leaves a beginning of the characters whose last is no pad, and removes only pads. -/
theorem trimTrailing_spec (chars : Bytes) : ∃ pads : Bytes, (∀ c ∈ pads, isPad c = true) ∧
    chars = trimTrailing chars ++ pads ∧ ∀ c, (trimTrailing chars).getLast? = some c → isPad c = false := by
  refine ⟨(chars.reverse.takeWhile isPad).reverse, ?_, ?_, ?_⟩
  · intro c hc
    exact List.mem_takeWhile_imp (List.mem_reverse.mp hc)
  · rw [trimTrailing, ← List.reverse_append, List.takeWhile_append_dropWhile, List.reverse_reverse]
  · intro c hc
    rw [trimTrailing, List.getLast?_reverse] at hc
    have := List.head?_dropWhile_not isPad chars.reverse
    rw [hc] at this
    simpa using this

/-- Spaces on the right of characters that are no pads are trimmed off. -/
theorem trimTrailing_pads {name : Bytes} (h : ∀ c ∈ name, isPad c = false) (k : Nat) :
    trimTrailing (name ++ List.replicate k 0x20) = name := by
  unfold trimTrailing
  rw [List.reverse_append, List.reverse_replicate, List.dropWhile_append_of_pos (by simp [isPad])]
  cases hn : name.reverse with
  | nil => simp at hn; simp [hn]
  | cons a b =>
    have : a ∈ name := by rw [← List.mem_reverse, hn]; simp
    rw [List.dropWhile_cons_of_neg (by simp [h a this]), ← hn, List.reverse_reverse]

/-- The fields of the seventh byte are those packed into it. -/
theorem packSsid_fields {hi3 s ext : Nat} (hh : hi3 ≤ 7) (hs : s ≤ 15) (he : ext ≤ 1) :
    (ssidOf (packSsid hi3 s ext)).toNat = s ∧ (crOf (packSsid hi3 s ext)).toNat = hi3 / 4 ∧
      (rrOf (packSsid hi3 s ext)).toNat = hi3 % 4 ∧ (extOf (packSsid hi3 s ext)).toNat = ext := by
  have key : ∀ (a : Fin 8) (b : Fin 16) (c : Fin 2), (ssidOf (packSsid a b c)).toNat = b ∧
      (crOf (packSsid a b c)).toNat = a / 4 ∧ (rrOf (packSsid a b c)).toNat = a % 4 ∧
      (extOf (packSsid a b c)).toNat = c := by decide
  exact key ⟨hi3, by omega⟩ ⟨s, by omega⟩ ⟨ext, by omega⟩

/-- When the encoder refuses: some operand, or the clamped SSID, is outside its domain. -/
theorem encodeAddr_error_iff {m : ClampMax} {name : Bytes} {ssid : Int} {hi3 ext : Nat} :
    (∃ r, encodeAddr m name ssid hi3 ext = .error r) ↔
      ¬ (isName name = true ∧ hi3 ≤ 7 ∧ ext ≤ 1 ∧ clampSsid m ssid ≠ 16) := by
  unfold encodeAddr
  split_ifs with h1 h2 h3
  all_goals
    simp_all
    try omega

end Sys2Proof.Machine
end

