-- ==== Sys2Proof/Laws/Decode.lean ====
section
/-! SUPPORT. The operand layout is read back as it was written, and only one spelling of a value is read. -/

namespace Sys2Proof

theorem readNat_natBytesAux {fuel n : Nat} (h : n ≤ fuel) (rest : Bytes) :
    readNat (natBytesAux fuel n ++ rest) = some (n, rest) := by
  induction fuel generalizing n with
  | zero => obtain rfl : n = 0 := by omega
            simp [natBytesAux, readNat]
  | succ fuel ih =>
    unfold natBytesAux
    split
    · have : n % 256 < 128 := by omega
      simp [readNat, this]
      omega
    · have hb : ¬ (n % 128 + 128) % 256 < 128 := by omega
      have hz : n / 128 ≠ 0 := by omega
      simp [readNat, hb, ih (n := n / 128) (by omega), hz]
      omega

/-- Every number is read back, whatever follows it. -/
@[simp] theorem readNat_natBytes (n : Nat) (rest : Bytes) : readNat (natBytes n ++ rest) = some (n, rest) :=
  readNat_natBytesAux (Nat.le_refl n) rest

@[simp] theorem readNat_natBytes_nil (n : Nat) : readNat (natBytes n) = some (n, []) := by
  simpa using readNat_natBytes n []

/-- More fuel than the number needs changes nothing. -/
theorem natBytesAux_fuel {f g n : Nat} (hf : n ≤ f) (hg : n ≤ g) : natBytesAux f n = natBytesAux g n := by
  induction f generalizing g n with
  | zero => obtain rfl : n = 0 := by omega
            cases g <;> simp [natBytesAux]
  | succ f ih =>
    cases g with
    | zero => obtain rfl : n = 0 := by omega
              simp [natBytesAux]
    | succ g =>
      unfold natBytesAux
      split
      · rfl
      · rw [ih (g := g) (n := n / 128) (by omega) (by omega)]

/-- What is read was written: only the shortest spelling of a number is read. -/
theorem natBytes_of_readNat {xs rest : Bytes} {n : Nat} (h : readNat xs = some (n, rest)) : xs = natBytes n ++ rest := by
  induction xs generalizing n rest with
  | nil => simp [readNat] at h
  | cons b bs ih =>
    unfold readNat at h
    split at h
    · rename_i hb
      cases h
      unfold natBytes
      cases hn : b.toNat with
      | zero => simp [natBytesAux, BitVec.eq_of_toNat_eq (x := b) (y := 0) (by simpa using hn)]
      | succ k =>
        rw [natBytesAux, if_pos (by omega), ← hn, BitVec.ofNat_toNat]
        simp
    · rename_i hb
      split at h
      · cases h
      · rename_i m r hr
        split at h
        · cases h
        · rename_i hm
          cases h
          have hlt := b.isLt
          rw [ih hr]
          unfold natBytes
          obtain ⟨k, hk⟩ : ∃ k, b.toNat - 128 + 128 * m = k + 1 := ⟨b.toNat - 128 + 128 * m - 1, by omega⟩
          have hdiv : (b.toNat - 128 + 128 * m) / 128 = m := by omega
          have hmod : (b.toNat - 128 + 128 * m) % 128 + 128 = b.toNat := by omega
          rw [hk, natBytesAux, if_neg (by omega), ← hk, hdiv, hmod, BitVec.ofNat_toNat,
            natBytesAux_fuel (f := k) (g := m) (by omega) (by omega)]
          simp

theorem unzigzag_zigzag (z : Int) : unzigzag (zigzag z) = z := by
  cases z with
  | ofNat n => simp [zigzag, unzigzag]
  | negSucc n => simp [zigzag, unzigzag]; omega

theorem zigzag_unzigzag (n : Nat) : zigzag (unzigzag n) = n := by
  unfold unzigzag
  split <;> simp only [zigzag] <;> omega

@[simp] theorem readInt_intBytes (z : Int) (rest : Bytes) : readInt (intBytes z ++ rest) = some (z, rest) := by
  simp [readInt, intBytes, unzigzag_zigzag]

@[simp] theorem readInt_intBytes_nil (z : Int) : readInt (intBytes z) = some (z, []) := by
  simpa using readInt_intBytes z []

theorem intBytes_of_readInt {xs rest : Bytes} {z : Int} (h : readInt xs = some (z, rest)) : xs = intBytes z ++ rest := by
  simp only [readInt, Option.map_eq_some_iff, Prod.exists] at h
  obtain ⟨n, r, hn, he⟩ := h
  cases he
  rw [natBytes_of_readNat hn, intBytes, zigzag_unzigzag]

@[simp] theorem readList_listBytes (xs rest : Bytes) : readList (listBytes xs ++ rest) = some (xs, rest) := by
  simp [readList, listBytes]

theorem listBytes_of_readList {xs rest ys : Bytes} (h : readList xs = some (ys, rest)) : xs = listBytes ys ++ rest := by
  unfold readList at h
  split at h
  · cases h
  · rename_i n r hn
    split at h
    · cases h
      rw [natBytes_of_readNat hn, listBytes]
      simp [Nat.min_eq_left ‹_›]
    · cases h

theorem readByte_eq_some {xs rest : Bytes} {b : Byte} : readByte xs = some (b, rest) ↔ xs = b :: rest := by
  cases xs <;> simp [readByte]

theorem atEnd_eq_some {i j : Instr} {xs : Bytes} : atEnd i xs = some j ↔ xs = [] ∧ i = j := by
  cases xs <;> simp [atEnd]

/-- The row found is one of the table's, and the key has its bits. -/
theorem firstRow_mem {n : Nat} {α : Type} {k : BitVec n} {rows : List (BitVec n × BitVec n × α)} {a : α}
    (h : firstRow k rows = some a) : ∃ bits mask, (bits, mask, a) ∈ rows ∧ k &&& mask = bits := by
  induction rows with
  | nil => cases h
  | cons row rows ih =>
    obtain ⟨bits, mask, c⟩ := row
    unfold firstRow at h
    split at h
    · cases h; exact ⟨bits, mask, by simp, ‹_›⟩
    · obtain ⟨x, y, hm, hk⟩ := ih h
      exact ⟨x, y, by simp [hm], hk⟩

end Sys2Proof
end

