-- ==== Sys2Proof/Laws/Encoder.lean ====
section
/-! SUPPORT. What escaping writes. -/

namespace Sys2Proof.Machine

theorem delimiter_not_mem_escape (xs : Bytes) : 0xC0 ∉ escape xs := by
  induction xs with
  | nil => simp [escape]
  | cons b bs ih =>
    simp only [escape, List.mem_append, not_or]
    refine ⟨?_, ih⟩
    unfold escapeByte
    split_ifs <;> simp_all
    exact fun h => by simp_all

theorem escape_length (xs : Bytes) : (escape xs).length = xs.length + xs.count 0xC0 + xs.count 0xDB := by
  induction xs with
  | nil => rfl
  | cons b bs ih =>
    simp only [escape, List.length_append, List.count_cons, List.length_cons, ih]
    unfold escapeByte
    split_ifs <;> simp_all <;> omega

end Sys2Proof.Machine
end

