-- ==== Sys2Proof/Laws/State.lean ====
section
/-! SUPPORT. One lemma per field per update of State. -/

namespace Sys2Proof.Machine

@[simp] theorem State.setDfr_cfg (s : State) (i : Nat) (d : Dfr) : (s.setDfr i d).cfg = s.cfg := rfl
@[simp] theorem State.setDfr_dfr (s : State) (i : Nat) (d : Dfr) : (s.setDfr i d).dfr = s.dfr.set i d := rfl
@[simp] theorem State.setDfr_pending (s : State) (i : Nat) (d : Dfr) : (s.setDfr i d).pending = s.pending := rfl
@[simp] theorem State.setDfr_results (s : State) (i : Nat) (d : Dfr) : (s.setDfr i d).results = s.results := rfl
@[simp] theorem State.setDfr_draws (s : State) (i : Nat) (d : Dfr) : (s.setDfr i d).draws = s.draws := rfl

@[simp] theorem State.reply_cfg (s : State) (r : Result) : (s.reply r).cfg = s.cfg := rfl
@[simp] theorem State.reply_dfr (s : State) (r : Result) : (s.reply r).dfr = s.dfr := rfl
@[simp] theorem State.reply_pending (s : State) (r : Result) : (s.reply r).pending = s.pending := rfl
@[simp] theorem State.reply_results (s : State) (r : Result) : (s.reply r).results = s.results ++ [r] := rfl
@[simp] theorem State.reply_draws (s : State) (r : Result) : (s.reply r).draws = s.draws := rfl

@[simp] theorem State.takeDraws_cfg (s : State) (k : Nat) : (s.takeDraws k).cfg = s.cfg := rfl
@[simp] theorem State.takeDraws_dfr (s : State) (k : Nat) : (s.takeDraws k).dfr = s.dfr := rfl
@[simp] theorem State.takeDraws_pending (s : State) (k : Nat) : (s.takeDraws k).pending = s.pending := rfl
@[simp] theorem State.takeDraws_results (s : State) (k : Nat) : (s.takeDraws k).results = s.results := rfl
@[simp] theorem State.takeDraws_draws (s : State) (k : Nat) : (s.takeDraws k).draws = s.draws + k := rfl

@[simp] theorem State.setPending_cfg (s : State) (p : List Request) : (s.setPending p).cfg = s.cfg := rfl
@[simp] theorem State.setPending_dfr (s : State) (p : List Request) : (s.setPending p).dfr = s.dfr := rfl
@[simp] theorem State.setPending_pending (s : State) (p : List Request) : (s.setPending p).pending = p := rfl
@[simp] theorem State.setPending_results (s : State) (p : List Request) : (s.setPending p).results = s.results := rfl
@[simp] theorem State.setPending_draws (s : State) (p : List Request) : (s.setPending p).draws = s.draws := rfl

/-- Writing an instance's own record changes nothing. -/
theorem State.setDfr_self {s : State} {i : Nat} {d : Dfr} (h : s.dfr[i]? = some d) : s.setDfr i d = s := by
  obtain ⟨hi, rfl⟩ := List.getElem?_eq_some_iff.mp h
  simp [State.setDfr]

/-- A record that was written is read back. -/
theorem State.getElem?_setDfr {s : State} {i : Nat} {d : Dfr} (h : s.dfr[i]? = some d) (d' : Dfr) :
    (s.setDfr i d').dfr[i]? = some d' := by
  obtain ⟨hi, -⟩ := List.getElem?_eq_some_iff.mp h
  simp [hi]

/-- No other record changes. -/
theorem State.getElem?_setDfr_ne {s : State} {i j : Nat} (h : j ≠ i) (d' : Dfr) :
    (s.setDfr i d').dfr[j]? = s.dfr[j]? := by
  simp [List.getElem?_set_ne h.symm]

end Sys2Proof.Machine
end

