-- ==== Sys2Proof/Laws/Ops.lean ====
section
/-! SUPPORT. What each shared operation of the deframer and of the dispatch can do, said once. -/

namespace Sys2Proof.Machine

theorem full_eq_false_iff {bound : Option Nat} {n : Nat} : full bound n = false ↔ ∀ m, bound = some m → n < m := by
  cases bound <;> simp [full]

theorem full_eq_true_iff {bound : Option Nat} {n : Nat} : full bound n = true ↔ ∃ m, bound = some m ∧ m ≤ n := by
  cases bound <;> simp [full]

@[simp] theorem full_none (n : Nat) : full none n = false := rfl

theorem withInst_some {inst : Nat} {s : State} {d : Dfr} (h : s.dfr[inst]? = some d) (k : Dfr → Answer) :
    withInst inst s k = k d := by
  simp [withInst, h]

theorem withInst_none {inst : Nat} {s : State} (h : s.dfr[inst]? = none) (k : Dfr → Answer) :
    withInst inst s k = .refused .badInst := by
  simp [withInst, h]

/-- An answer of an operation on an instance other than BadInst comes from the instance's record. -/
theorem withInst_next {inst : Nat} {s t : State} {k : Dfr → Answer} (h : withInst inst s k = .next t) :
    ∃ d, s.dfr[inst]? = some d ∧ k d = .next t := by
  unfold withInst at h
  split at h
  · cases h
  · exact ⟨_, ‹_›, h⟩

theorem appendByte_room {inst : Nat} {b : Byte} {esc : Esc} {s : State} {d : Dfr}
    (h : full s.cfg.maxFrameBytes d.buf.length = false) :
    appendByte inst b esc s d = .next (s.setDfr inst { d with buf := d.buf ++ [b], esc := esc }) := by
  simp [appendByte, h]

theorem appendByte_full {inst : Nat} {b : Byte} {esc : Esc} {s : State} {d : Dfr}
    (h : full s.cfg.maxFrameBytes d.buf.length = true) : appendByte inst b esc s d = .fault .stuckBufferFull := by
  simp [appendByte, h]

/-- All that appending a byte can do. -/
theorem appendByte_next {inst : Nat} {b : Byte} {esc : Esc} {s t : State} {d : Dfr}
    (h : appendByte inst b esc s d = .next t) :
    full s.cfg.maxFrameBytes d.buf.length = false ∧ t = s.setDfr inst { d with buf := d.buf ++ [b], esc := esc } := by
  unfold appendByte at h
  split at h
  · cases h
  · cases h; simp_all

/-- All that ending a frame can do. -/
theorem endFrame_next {inst : Nat} {s t : State} {d : Dfr} (h : endFrame inst s d = .next t) :
    (d.buf = [] ∧ t = s) ∨ (d.buf ≠ [] ∧ full s.cfg.queueDepth d.q.length = false ∧
      t = s.setDfr inst { d with q := d.q ++ [d.buf], buf := [] }) := by
  unfold endFrame at h
  split at h
  · cases h; exact .inl ⟨‹_›, rfl⟩
  · split at h
    · cases h
    · cases h; exact .inr ⟨‹_›, by simp_all, rfl⟩

theorem rxClass_normal_escape : rxClass .normal 0xDB = .nEsc := rfl
theorem rxClass_normal_delimiter : rxClass .normal 0xC0 = .nDelim := rfl
theorem rxClass_escaped_transEscape : rxClass .escaped 0xDD = .eTesc := rfl
theorem rxClass_escaped_transDelimiter : rxClass .escaped 0xDC = .eTdelim := rfl

theorem rxClass_data {b : Byte} (h1 : b ≠ 0xDB) (h2 : b ≠ 0xC0) : rxClass .normal b = .nData := by
  rw [rxClass, if_neg h1, if_neg h2]

theorem rxClass_violation {b : Byte} (h1 : b ≠ 0xDD) (h2 : b ≠ 0xDC) : rxClass .escaped b = .eViol := by
  rw [rxClass, if_neg h1, if_neg h2]

/-- What one received byte makes of an instance's record, where it is accepted. -/
inductive RxStep (cfg : Config) (d : Dfr) (b : Byte) : Dfr → Prop where
  | escape : d.esc = .normal → b = 0xDB → RxStep cfg d b { d with esc := .escaped }
  | idle : d.esc = .normal → b = 0xC0 → d.buf = [] → RxStep cfg d b d
  | push : d.esc = .normal → b = 0xC0 → d.buf ≠ [] → full cfg.queueDepth d.q.length = false →
      RxStep cfg d b { d with q := d.q ++ [d.buf], buf := [] }
  | data : d.esc = .normal → b ≠ 0xDB → b ≠ 0xC0 → full cfg.maxFrameBytes d.buf.length = false →
      RxStep cfg d b { d with buf := d.buf ++ [b] }
  | transEscape : d.esc = .escaped → b = 0xDD → full cfg.maxFrameBytes d.buf.length = false →
      RxStep cfg d b { d with buf := d.buf ++ [0xDB], esc := .normal }
  | transDelimiter : d.esc = .escaped → b = 0xDC → full cfg.maxFrameBytes d.buf.length = false →
      RxStep cfg d b { d with buf := d.buf ++ [0xC0], esc := .normal }
  | violation : d.esc = .escaped → b ≠ 0xDD → b ≠ 0xDC → RxStep cfg d b { d with buf := [], esc := .normal }

/-- All that an accepted RXB arm can do to its instance. -/
theorem rxArm_next {inst : Nat} {b : Byte} {s t : State} {d : Dfr} (hd : s.dfr[inst]? = some d)
    (h : rxArm (rxClass d.esc b) inst b s d = .next t) : ∃ d', RxStep s.cfg d b d' ∧ t = s.setDfr inst d' := by
  unfold rxClass at h
  cases he : d.esc with
  | normal =>
    simp only [he] at h
    by_cases h1 : b = wireEscape
    · simp only [h1, if_true, rxArm, armNEsc] at h
      cases h; exact ⟨_, .escape he h1, rfl⟩
    · by_cases h2 : b = wireDelimiter
      · rw [if_neg h1, if_pos h2] at h
        simp only [rxArm] at h
        obtain ⟨hb, rfl⟩ | ⟨hb, hq, rfl⟩ := endFrame_next h
        · exact ⟨d, .idle he h2 hb, (State.setDfr_self hd).symm⟩
        · exact ⟨_, .push he h2 hb hq, rfl⟩
      · rw [if_neg h1, if_neg h2] at h
        simp only [rxArm] at h
        obtain ⟨hf, rfl⟩ := appendByte_next h
        refine ⟨_, .data he h1 h2 hf, by rw [he]⟩
  | escaped =>
    simp only [he] at h
    by_cases h1 : b = wireTransEscape
    · rw [if_pos h1] at h
      simp only [rxArm] at h
      obtain ⟨hf, rfl⟩ := appendByte_next h
      exact ⟨_, .transEscape he h1 hf, rfl⟩
    · by_cases h2 : b = wireTransDelimiter
      · rw [if_neg h1, if_pos h2] at h
        simp only [rxArm] at h
        obtain ⟨hf, rfl⟩ := appendByte_next h
        exact ⟨_, .transDelimiter he h2 hf, rfl⟩
      · rw [if_neg h1, if_neg h2] at h
        simp only [rxArm, armEViol] at h
        cases h; exact ⟨_, .violation he h1 h2, rfl⟩

/-- RXB on an instance that exists and is open is the arm of its class. -/
theorem execRxb_open {inst : Nat} {b : Byte} {s : State} {d : Dfr} (hd : s.dfr[inst]? = some d) (ho : d.closed = false) :
    execRxb inst b s = rxArm (rxClass d.esc b) inst b s d := by
  simp [execRxb, withInst_some hd, ho]

/-- All that an accepted RXB can do. -/
theorem execRxb_next {inst : Nat} {b : Byte} {s t : State} (h : execRxb inst b s = .next t) :
    ∃ d d', s.dfr[inst]? = some d ∧ d.closed = false ∧ RxStep s.cfg d b d' ∧ t = s.setDfr inst d' := by
  obtain ⟨d, hd, h⟩ := withInst_next h
  split at h
  · cases h
  · obtain ⟨d', hs, rfl⟩ := rxArm_next hd h
    exact ⟨d, d', hd, by simp_all, hs, rfl⟩

/-- A row of the RXCLASS table that its key selects does what RXB does. -/
theorem rxRow_selected {c : RxClass} {inst : Nat} {b : Byte} {s : State} {d : Dfr} (hd : s.dfr[inst]? = some d)
    (hc : rxClass d.esc b = c) : rxRow c inst b s = execRxb inst b s := by
  subst hc
  simp [rxRow, execRxb, withInst_some hd]

/-- An accepted row of the RXCLASS table is RXB. -/
theorem rxRow_next {c : RxClass} {inst : Nat} {b : Byte} {s t : State} (h : rxRow c inst b s = .next t) :
    execRxb inst b s = .next t := by
  obtain ⟨d, hd, h'⟩ := withInst_next h
  split at h'
  · rw [← h, rxRow_selected hd ‹_›]
  · cases h'

theorem execEof_next {inst : Nat} {s t : State} (h : execEof inst s = .next t) :
    ∃ d, s.dfr[inst]? = some d ∧ d.closed = false ∧
      t = s.setDfr inst { d with buf := [], esc := .normal, closed := true } := by
  obtain ⟨d, hd, h⟩ := withInst_next h
  split at h
  · cases h
  · cases h; exact ⟨d, hd, by simp_all, rfl⟩

theorem execPop_next {inst : Nat} {s t : State} (h : execPop inst s = .next t) :
    ∃ d f rest, s.dfr[inst]? = some d ∧ d.q = f :: rest ∧ t = (s.setDfr inst { d with q := rest }).reply (.frame f) := by
  obtain ⟨d, hd, h⟩ := withInst_next h
  split at h
  · split at h <;> cases h
  · cases h; exact ⟨d, _, _, hd, ‹_›, rfl⟩

theorem execStat_next {inst : Nat} {s t : State} (h : execStat inst s = .next t) :
    ∃ d, s.dfr[inst]? = some d ∧ t = s.reply (.status (statusOf d)) := by
  obtain ⟨d, hd, h⟩ := withInst_next h
  cases h; exact ⟨d, hd, rfl⟩

theorem execRst_next {inst : Nat} {s t : State} (h : execRst inst s = .next t) :
    ∃ d, s.dfr[inst]? = some d ∧ t = s.setDfr inst Dfr.reset := by
  obtain ⟨d, hd, h⟩ := withInst_next h
  cases h; exact ⟨d, hd, rfl⟩

end Sys2Proof.Machine
end

