-- ==== Sys2Proof/Laws/Exec.lean ====
section
/-! SUPPORT. What an instruction can do when it answers a next state, by kind: one instance written and at most one result for
the deframer's, one result and some draws for the stateless units'. -/

namespace Sys2Proof.Machine

theorem State.setDfr_reply_nil (s : State) (i : Nat) (d : Dfr) :
    s.setDfr i d = { s with dfr := s.dfr.set i d, results := s.results ++ [] } := by
  simp [State.setDfr]

/-- RXB and its rows, told apart from the other operations on an instance. -/
def isRx : Instr → Bool
  | .rxb _ _ => true
  | .nEsc _ => true
  | .nDelim _ => true
  | .nData _ _ => true
  | .eTesc _ => true
  | .eTdelim _ => true
  | .eViol _ _ => true
  | _ => false

/-- RXB or a row of it, accepted, is an accepted byte. -/
theorem exec_rx_next {i : Instr} {inst : Nat} {s t : State} (hi : target i = some inst) (hr : isRx i = true)
    (h : exec i s = .next t) : ∃ b, execRxb inst b s = .next t := by
  cases i <;> simp only [isRx, target, Option.some.injEq, reduceCtorEq, Bool.false_eq_true] at hi hr <;> subst hi
  case rxb b => exact ⟨b, h⟩
  all_goals exact ⟨_, rxRow_next h⟩

/-- An accepted operation on an instance writes that instance's record, returns at most one result, and nothing else. -/
theorem exec_target_next {i : Instr} {inst : Nat} {s t : State} (hi : target i = some inst) (h : exec i s = .next t) :
    ∃ d d' rs, s.dfr[inst]? = some d ∧ t = { s with dfr := s.dfr.set inst d', results := s.results ++ rs } := by
  by_cases hr : isRx i = true
  · obtain ⟨b, hb⟩ := exec_rx_next hi hr h
    obtain ⟨d, d', hd, -, -, rfl⟩ := execRxb_next hb
    exact ⟨d, d', [], hd, State.setDfr_reply_nil ..⟩
  · cases i <;> simp only [isRx, target, Option.some.injEq, reduceCtorEq, not_true] at hi hr <;> subst hi
    case eof =>
      obtain ⟨d, hd, -, rfl⟩ := execEof_next h
      exact ⟨d, _, [], hd, State.setDfr_reply_nil ..⟩
    case pop =>
      obtain ⟨d, f, rest, hd, -, rfl⟩ := execPop_next h
      exact ⟨d, _, _, hd, rfl⟩
    case stat =>
      obtain ⟨d, hd, rfl⟩ := execStat_next h
      refine ⟨d, d, [.status (statusOf d)], hd, ?_⟩
      conv_lhs => rw [← State.setDfr_self hd]
      rfl
    case rst =>
      obtain ⟨d, hd, rfl⟩ := execRst_next h
      exact ⟨d, _, [], hd, State.setDfr_reply_nil ..⟩

/-- An accepted operation of a stateless unit returns one result; only a UIB draws. -/
theorem exec_stateless_next {i : Instr} {s t : State} (hi : target i = none) (h : exec i s = .next t) :
    ∃ r k, t = (s.takeDraws k).reply r ∧
      ((∀ sn ss dn ds payload padlen, i ≠ .uib sn ss dn ds payload padlen) → k = 0) := by
  cases i <;> simp only [target, reduceCtorEq] at hi
  case uib sn ss dn ds payload padlen =>
    simp only [exec, execUib] at h
    split at h
    · cases h
    · split at h
      · cases h
      · cases h; exact ⟨_, _, rfl, fun hn => absurd rfl (hn _ _ _ _ _ _)⟩
  case typb =>
    simp only [exec, execTypb] at h
    split at h
    · cases h
    · cases h; exact ⟨_, 0, rfl, fun _ => rfl⟩
  case split =>
    simp only [exec, execSplit] at h
    split at h
    · cases h
    · cases h; exact ⟨_, 0, rfl, fun _ => rfl⟩
  case aenc =>
    simp only [exec, execAenc] at h
    split at h
    · cases h
    · cases h; exact ⟨_, 0, rfl, fun _ => rfl⟩
  case adec =>
    simp only [exec, execAdec] at h
    split at h
    · cases h; exact ⟨_, 0, rfl, fun _ => rfl⟩
    · cases h
  case uUnknown =>
    simp only [exec, execUUnknown, replyType] at h
    split at h
    · cases h; exact ⟨_, 0, rfl, fun _ => rfl⟩
    · cases h
  case pidUnknown =>
    simp only [exec, execPidUnknown, replyKind] at h
    split at h
    · cases h; exact ⟨_, 0, rfl, fun _ => rfl⟩
    · cases h
  all_goals cases h; exact ⟨_, 0, rfl, fun _ => rfl⟩

/-- No instruction touches the requests that wait. -/
theorem exec_keeps_pending {i : Instr} {s t : State} (h : exec i s = .next t) : t.pending = s.pending := by
  cases hi : target i with
  | some inst => obtain ⟨d, d', rs, -, rfl⟩ := exec_target_next hi h; rfl
  | none => obtain ⟨r, k, rfl, -⟩ := exec_stateless_next hi h; rfl

/-- What an instruction answers when the requests that wait are others: the same, but for them. -/
def withPending (p : List Request) : Answer → Answer
  | .next t => .next (t.setPending p)
  | .fault f => .fault f
  | .refused r => .refused r

theorem withInst_setPending (inst : Nat) (s : State) (p : List Request) (k k' : Dfr → Answer)
    (h : ∀ d, k d = withPending p (k' d)) : withInst inst (s.setPending p) k = withPending p (withInst inst s k') := by
  unfold withInst
  rw [State.setPending_dfr]
  cases s.dfr[inst]? with
  | none => rfl
  | some d => exact h d

theorem rxArm_setPending (c : RxClass) (inst : Nat) (b : Byte) (s : State) (p : List Request) (d : Dfr) :
    rxArm c inst b (s.setPending p) d = withPending p (rxArm c inst b s d) := by
  cases c
  case nEsc => rfl
  case eViol => rfl
  case nDelim =>
    by_cases hb : d.buf = []
    · simp [rxArm, endFrame, hb, withPending]
    · cases hq : full s.cfg.queueDepth d.q.length <;> (simp [rxArm, endFrame, hb, hq, withPending]; try rfl)
  all_goals
    cases hf : full s.cfg.maxFrameBytes d.buf.length <;> (simp [rxArm, appendByte, hf, withPending]; try rfl)

theorem rxRow_setPending (c : RxClass) (inst : Nat) (b : Byte) (s : State) (p : List Request) :
    rxRow c inst b (s.setPending p) = withPending p (rxRow c inst b s) := by
  refine withInst_setPending _ _ _ _ _ fun d => ?_
  split
  · split
    · rfl
    · exact rxArm_setPending ..
  · rfl

/-- No instruction reads the requests that wait. -/
theorem exec_setPending (i : Instr) (s : State) (p : List Request) :
    exec i (s.setPending p) = withPending p (exec i s) := by
  cases i
  case rxb =>
    refine withInst_setPending _ _ _ _ _ fun d => ?_
    split
    · rfl
    · exact rxArm_setPending ..
  case nEsc => exact rxRow_setPending ..
  case nDelim => exact rxRow_setPending ..
  case nData => exact rxRow_setPending ..
  case eTesc => exact rxRow_setPending ..
  case eTdelim => exact rxRow_setPending ..
  case eViol => exact rxRow_setPending ..
  case eof => exact withInst_setPending _ _ _ _ _ fun d => by split <;> rfl
  case pop =>
    refine withInst_setPending _ _ _ _ _ fun d => ?_
    split
    · split <;> rfl
    · rfl
  case stat => exact withInst_setPending _ _ _ _ _ fun _ => rfl
  case rst => exact withInst_setPending _ _ _ _ _ fun _ => rfl
  case typb => simp only [exec, execTypb]; split <;> rfl
  case split f => cases f <;> rfl
  case aenc => simp only [exec, execAenc, State.setPending_cfg]; split <;> rfl
  case adec => simp only [exec, execAdec]; split <;> rfl
  case uib =>
    simp only [exec, execUib, State.setPending_cfg]
    split
    · rfl
    · split <;> rfl
  case uUnknown => simp only [exec, execUUnknown]; split <;> rfl
  case pidUnknown => simp only [exec, execPidUnknown]; split <;> rfl
  all_goals rfl

end Sys2Proof.Machine
end

