-- ==== Sys2Proof/Laws/Fetch.lean ====
section
/-! SUPPORT. How the pending requests are gone through. -/

namespace Sys2Proof.Machine

/-- Requests of one agent keep their order. -/
theorem mustPrecede_of_agent {p r : Request} (h : p.agent = r.agent) : mustPrecede p r = true := by
  simp [mustPrecede, h]

theorem inputOf_ok {r : Request} {i : Instr} (h : decode r.message = .ok i) : inputOf r = transportInst i := by
  simp [inputOf, h]

/-- Transport input to one instance keeps its order, whoever issues it. -/
theorem mustPrecede_of_input {p r : Request} {inst : Nat} (hp : inputOf p = some inst) (hr : inputOf r = some inst) :
    mustPrecede p r = true := by
  simp [mustPrecede, hp, hr]

/-- Requests of two agents that do not bring input to one instance may go in either order. -/
theorem mustPrecede_eq_false {p r : Request} :
    mustPrecede p r = false ↔ p.agent ≠ r.agent ∧ ∀ inst, inputOf p = some inst → inputOf r ≠ some inst := by
  unfold mustPrecede
  generalize inputOf p = a
  generalize inputOf r = b
  cases a with
  | none => simp
  | some n => simpa using fun _ => ⟨fun h => Ne.symm h, fun h => Ne.symm h⟩

@[simp] theorem serve_nil (s : State) (passed : List Request) : serve s passed [] = .next s := rfl

/-- A request that one gone by must precede is passed by. -/
theorem serve_behind {s : State} {passed rest : List Request} {r : Request}
    (h : passed.any (fun p => mustPrecede p r) = true) : serve s passed (r :: rest) = serve s (passed ++ [r]) rest := by
  simp only [serve, h, if_true]

/-- An accepted request is performed, with itself taken out of those that wait. -/
theorem serve_next {s t : State} {passed rest : List Request} {r : Request}
    (h : passed.any (fun p => mustPrecede p r) = false)
    (ht : attempt r.message (s.setPending (passed ++ rest)) = .next t) : serve s passed (r :: rest) = .next t := by
  simp [serve, h, ht]

/-- A refused request refuses the step. -/
theorem serve_refused {s : State} {passed rest : List Request} {r : Request} {e : Refusal}
    (h : passed.any (fun p => mustPrecede p r) = false)
    (ht : attempt r.message (s.setPending (passed ++ rest)) = .refused e) : serve s passed (r :: rest) = .refused e := by
  simp [serve, h, ht]

/-- A request that is held or stuck is passed by. -/
theorem serve_fault {s : State} {passed rest : List Request} {r : Request} {f : Fault}
    (h : passed.any (fun p => mustPrecede p r) = false)
    (ht : attempt r.message (s.setPending (passed ++ rest)) = .fault f) :
    serve s passed (r :: rest) = serve s (passed ++ [r]) rest := by
  simp [serve, h, ht]

theorem attempt_ok {m : Message} {i : Instr} (h : decode m = .ok i) (s : State) : attempt m s = exec i s := by
  simp [attempt, h]

theorem attempt_error {m : Message} {e : DecodeError} (h : decode m = .error e) (s : State) :
    attempt m s = .refused (refusalOf e) := by
  simp [attempt, h]

/-- Whether a request waits does not depend on the requests that wait beside it. -/
theorem attempt_fault_setPending {m : Message} {s : State} {p : List Request} {f : Fault}
    (h : attempt m (s.setPending p) = .fault f) : attempt m s = .fault f := by
  unfold attempt at h ⊢
  split at h
  · cases h
  · rw [exec_setPending] at h
    cases he : exec _ s with
    | fault g => rw [he] at h; exact h
    | next t => rw [he] at h; cases h
    | refused e => rw [he] at h; cases h

/-- Why a request waits is the reason its attempt answers. -/
theorem waitOf_eq_some {s : State} {r : Request} {f : Fault} : waitOf s r = some f ↔ attempt r.message s = .fault f := by
  unfold waitOf
  cases attempt r.message s <;> simp

/-- A request that is accepted was read as an instruction. -/
theorem attempt_next {m : Message} {s t : State} (h : attempt m s = .next t) : ∃ i, decode m = .ok i ∧ exec i s = .next t := by
  unfold attempt at h
  split at h
  · cases h
  · exact ⟨_, ‹_›, h⟩

end Sys2Proof.Machine
end

