-- ==== Sys2Proof/Laws/Header.lean ====
section
/-! SUPPORT. The walk of the address chain, by groups. -/

namespace Sys2Proof.Machine

/-- The record of a whole group, wherever its seven bytes are split. -/
def decodeGroup (g : Bytes) : AddrDecoded := decodeEntry (g.take 6) (g.getD 6 0)

theorem isGroup_cases {ext : Bool} {g : Bytes} (h : IsGroup ext g) :
    ∃ a0 a1 a2 a3 a4 a5 a6 : Byte, g = [a0, a1, a2, a3, a4, a5, a6] ∧ a6.getLsbD 0 = ext := by
  obtain ⟨hl, b, hb, he⟩ := h
  match g, hl with
  | [a0, a1, a2, a3, a4, a5, a6], _ =>
    simp at hb
    exact ⟨a0, a1, a2, a3, a4, a5, a6, rfl, hb ▸ he⟩

theorem extOf_eq_one_iff (b : Byte) : extOf b = 1 ↔ b.getLsbD 0 = true := by
  revert b; decide

/-- A group with the extension flag clear is decoded and the walk goes on. -/
theorem walk_group_false {g rest : Bytes} (h : IsGroup false g) (n : Nat) :
    walk n (g ++ rest) = ({ role := roleOf n, addr := decodeGroup g } :: (walk (n + 1) rest).1, (walk (n + 1) rest).2) := by
  obtain ⟨a0, a1, a2, a3, a4, a5, a6, rfl, he⟩ := isGroup_cases h
  have : ¬ extOf a6 = 1 := by rw [extOf_eq_one_iff, he]; simp
  simp only [List.cons_append, List.nil_append, walk, if_neg this]
  rfl

/-- A group with the extension flag set is decoded and ends the chain. -/
theorem walk_group_true {g rest : Bytes} (h : IsGroup true g) (n : Nat) :
    walk n (g ++ rest) = ([{ role := roleOf n, addr := decodeGroup g }], true, rest) := by
  obtain ⟨a0, a1, a2, a3, a4, a5, a6, rfl, he⟩ := isGroup_cases h
  have : extOf a6 = 1 := by rw [extOf_eq_one_iff, he]
  simp only [List.cons_append, List.nil_append, walk, if_pos this]
  rfl

/-- Fewer than seven bytes are no group. -/
theorem walk_short {xs : Bytes} (h : xs.length < 7) (n : Nat) : walk n xs = ([], false, xs) := by
  unfold walk
  split
  · simp at h; omega
  · rfl

/-- The chain entries of whole groups, the first being entry `n`. -/
def entriesFrom (n : Nat) : List Bytes → List ChainEntry
  | [] => []
  | g :: gs => { role := roleOf n, addr := decodeGroup g } :: entriesFrom (n + 1) gs

theorem entriesFrom_length (n : Nat) (gs : List Bytes) : (entriesFrom n gs).length = gs.length := by
  induction gs generalizing n with
  | nil => rfl
  | cons a gs ih => simp [entriesFrom, ih]

theorem getElem?_entriesFrom {n k : Nat} {gs : List Bytes} {a : Bytes} (h : gs[k]? = some a) :
    (entriesFrom n gs)[k]? = some { role := roleOf (n + k), addr := decodeGroup a } := by
  induction gs generalizing n k with
  | nil => simp at h
  | cons b gs ih =>
    cases k with
    | zero => simp at h; subst h; simp [entriesFrom]
    | succ k => simp at h; simp [entriesFrom, ih (n := n + 1) h, show n + 1 + k = n + (k + 1) by omega]

theorem entriesFrom_append (n : Nat) (gs : List Bytes) (g : Bytes) :
    entriesFrom n (gs ++ [g]) = entriesFrom n gs ++ [{ role := roleOf (n + gs.length), addr := decodeGroup g }] := by
  induction gs generalizing n with
  | nil => simp [entriesFrom]
  | cons a gs ih =>
    have : n + 1 + gs.length = n + (a :: gs).length := by simp; omega
    simp [entriesFrom, ih, this]

/-- Groups whose extension flag is clear are decoded one after another. -/
theorem walk_groups {gs : List Bytes} (h : ∀ a ∈ gs, IsGroup false a) (n : Nat) (xs : Bytes) :
    walk n (gs.flatten ++ xs) =
      (entriesFrom n gs ++ (walk (n + gs.length) xs).1, (walk (n + gs.length) xs).2) := by
  induction gs generalizing n with
  | nil => simp [entriesFrom]
  | cons g gs ih =>
    rw [List.flatten_cons, List.append_assoc, walk_group_false (h g (by simp)), ih (fun a ha => h a (by simp [ha]))]
    have : n + 1 + gs.length = n + (g :: gs).length := by simp; omega
    simp [entriesFrom, this]

/-- The header's chain is the walk's. -/
theorem decodeHeader_chain (body : Bytes) :
    (decodeHeader body).chain = (walk 0 body).1 ∧ (decodeHeader body).complete = (walk 0 body).2.1 := by
  unfold decodeHeader
  split <;> rename_i hw <;> rw [hw]
  · exact ⟨rfl, rfl⟩
  · exact ⟨rfl, rfl⟩
  · split <;> exact ⟨rfl, rfl⟩

end Sys2Proof.Machine
end

