-- ==== Sys2Proof/Laws/PerInstr.lean ====
section
/-! SUPPORT. For every instruction: its message is read by the decode table of its row, and its first bits are the row's. The
table below is opcode_table.json's format, match and mask, written out again apart from the decoder and the encoder. -/

namespace Sys2Proof.Laws.RowBits

/-- The format of an instruction's row, its match and its mask. -/
def row : Instr → Space × Nat × Nat
  | .rxb _ _ => (.op, 0x01, 0xFF)
  | .eof _ => (.op, 0x02, 0xFF)
  | .pop _ => (.op, 0x03, 0xFF)
  | .stat _ => (.op, 0x04, 0xFF)
  | .rst _ => (.op, 0x05, 0xFF)
  | .enc _ _ => (.op, 0x10, 0xFF)
  | .esc _ => (.op, 0x11, 0xFF)
  | .typb _ _ => (.op, 0x12, 0xFF)
  | .split _ => (.op, 0x13, 0xFF)
  | .aenc _ _ _ _ => (.op, 0x20, 0xFF)
  | .adec _ => (.op, 0x21, 0xFF)
  | .hdec _ => (.op, 0x30, 0xFF)
  | .cdec _ => (.op, 0x31, 0xFF)
  | .pdec _ => (.op, 0x32, 0xFF)
  | .uib _ _ _ _ _ _ => (.op, 0x40, 0xFF)
  | .cks _ => (.op, 0x50, 0xFF)
  | .nEsc _ => (.rxclass, 0x0DB, 0x1FF)
  | .nDelim _ => (.rxclass, 0x0C0, 0x1FF)
  | .nData _ _ => (.rxclass, 0x000, 0x100)
  | .eTesc _ => (.rxclass, 0x1DD, 0x1FF)
  | .eTdelim _ => (.rxclass, 0x1DC, 0x1FF)
  | .eViol _ _ => (.rxclass, 0x100, 0x100)
  | .ctrlI _ _ _ => (.ctrl8, 0x00, 0x01)
  | .ctrlS _ _ => (.ctrl8, 0x01, 0x03)
  | .uSabme _ => (.ctrl8, 0x6F, 0xEF)
  | .uSabm _ => (.ctrl8, 0x2F, 0xEF)
  | .uDisc _ => (.ctrl8, 0x43, 0xEF)
  | .uDm _ => (.ctrl8, 0x0F, 0xEF)
  | .uUa _ => (.ctrl8, 0x63, 0xEF)
  | .uFrmr _ => (.ctrl8, 0x87, 0xEF)
  | .uUi _ => (.ctrl8, 0x03, 0xEF)
  | .uXid _ => (.ctrl8, 0xAF, 0xEF)
  | .uTest _ => (.ctrl8, 0xE3, 0xEF)
  | .uUnknown _ => (.ctrl8, 0x03, 0x03)
  | .pidIso8208 => (.pid8, 0x01, 0xFF)
  | .pidCompressedTcpip => (.pid8, 0x06, 0xFF)
  | .pidUncompressedTcpip => (.pid8, 0x07, 0xFF)
  | .pidSegmentationFragment => (.pid8, 0x08, 0xFF)
  | .pidTexnet => (.pid8, 0xC3, 0xFF)
  | .pidLinkQuality => (.pid8, 0xC4, 0xFF)
  | .pidAppletalk => (.pid8, 0xCA, 0xFF)
  | .pidArpaIp => (.pid8, 0xCC, 0xFF)
  | .pidArpaArp => (.pid8, 0xCD, 0xFF)
  | .pidNetrom => (.pid8, 0xCF, 0xFF)
  | .pidNoLayer3 => (.pid8, 0xF0, 0xFF)
  | .pidEscape => (.pid8, 0xFF, 0xFF)
  | .pidUnknown _ => (.pid8, 0x00, 0x00)

/-- The bits a row is matched against: the first byte, and for a key of R57 its bit 8 above it. -/
def firstBits (m : Message) : Nat :=
  (m.bytes.headD 0).toNat + if m.space = .rxclass then 256 * (m.bytes.getD 1 0).toNat else 0

/-- The message of the instruction belongs to its row. -/
def Statement (i : Instr) : Prop :=
  (encode i).space = (row i).1 ∧ Nat.land (firstBits (encode i)) (row i).2.2 = (row i).2.1

theorem op_row (b : Byte) (xs : Bytes) : Nat.land (firstBits (opMsg b xs)) 0xFF = b.toNat :=
  (by decide : ∀ b : Byte, Nat.land (b.toNat + 0) 0xFF = b.toNat) b

theorem rx_row (e : BitVec 1) (b : Byte) (inst : Nat) :
    Nat.land (firstBits (rxMsg (e.setWidth 8) b inst)) 0x1FF = 256 * e.toNat + b.toNat :=
  (by decide : ∀ (e : BitVec 1) (b : Byte),
    Nat.land (b.toNat + 256 * (e.setWidth 8).toNat) 0x1FF = 256 * e.toNat + b.toNat) e b

theorem rxb (inst : Nat) (b : Byte) : Statement (.rxb inst b) := ⟨rfl, op_row _ _⟩
theorem eof (inst : Nat) : Statement (.eof inst) := ⟨rfl, op_row _ _⟩
theorem pop (inst : Nat) : Statement (.pop inst) := ⟨rfl, op_row _ _⟩
theorem stat (inst : Nat) : Statement (.stat inst) := ⟨rfl, op_row _ _⟩
theorem rst (inst : Nat) : Statement (.rst inst) := ⟨rfl, op_row _ _⟩
theorem enc (t : Byte) (body : Bytes) : Statement (.enc t body) := ⟨rfl, op_row _ _⟩
theorem esc (xs : Bytes) : Statement (.esc xs) := ⟨rfl, op_row _ _⟩
theorem typb (port command : Nat) : Statement (.typb port command) := ⟨rfl, op_row _ _⟩
theorem split (f : Bytes) : Statement (.split f) := ⟨rfl, op_row _ _⟩
theorem aenc (name : Bytes) (ssid : Int) (hi3 ext : Nat) : Statement (.aenc name ssid hi3 ext) := ⟨rfl, op_row _ _⟩
theorem adec (a : Bytes) : Statement (.adec a) := ⟨rfl, op_row _ _⟩
theorem hdec (body : Bytes) : Statement (.hdec body) := ⟨rfl, op_row _ _⟩
theorem cdec (c : Byte) : Statement (.cdec c) := ⟨rfl, op_row _ _⟩
theorem pdec (p : Byte) : Statement (.pdec p) := ⟨rfl, op_row _ _⟩
theorem uib (srcName : Bytes) (srcSsid : Int) (dstName : Bytes) (dstSsid : Int) (payload : Bytes) (padlen : Int) :
    Statement (.uib srcName srcSsid dstName dstSsid payload padlen) :=
  ⟨rfl, op_row _ _⟩
theorem cks (xs : Bytes) : Statement (.cks xs) := ⟨rfl, op_row _ _⟩
theorem nEsc (inst : Nat) : Statement (.nEsc inst) := ⟨rfl, rx_row 0 0xDB inst⟩
theorem nDelim (inst : Nat) : Statement (.nDelim inst) := ⟨rfl, rx_row 0 0xC0 inst⟩
theorem nData (inst : Nat) (b : Byte) : Statement (.nData inst b) :=
  ⟨rfl, (by decide : ∀ b : Byte, Nat.land (b.toNat + 0) 0x100 = 0x000) b⟩
theorem eTesc (inst : Nat) : Statement (.eTesc inst) := ⟨rfl, rx_row 1 0xDD inst⟩
theorem eTdelim (inst : Nat) : Statement (.eTdelim inst) := ⟨rfl, rx_row 1 0xDC inst⟩
theorem eViol (inst : Nat) (b : Byte) : Statement (.eViol inst b) :=
  ⟨rfl, (by decide : ∀ b : Byte, Nat.land (b.toNat + 256) 0x100 = 0x100) b⟩
theorem ctrlI (ns : BitVec 3) (pf : BitVec 1) (nr : BitVec 3) : Statement (.ctrlI ns pf nr) := ⟨rfl, by revert ns pf nr; decide⟩
theorem ctrlS (nr : BitVec 3) (x : BitVec 3) : Statement (.ctrlS nr x) := ⟨rfl, by revert nr x; decide⟩
theorem uSabme (p : BitVec 1) : Statement (.uSabme p) := ⟨rfl, by revert p; decide⟩
theorem uSabm (p : BitVec 1) : Statement (.uSabm p) := ⟨rfl, by revert p; decide⟩
theorem uDisc (p : BitVec 1) : Statement (.uDisc p) := ⟨rfl, by revert p; decide⟩
theorem uDm (p : BitVec 1) : Statement (.uDm p) := ⟨rfl, by revert p; decide⟩
theorem uUa (p : BitVec 1) : Statement (.uUa p) := ⟨rfl, by revert p; decide⟩
theorem uFrmr (p : BitVec 1) : Statement (.uFrmr p) := ⟨rfl, by revert p; decide⟩
theorem uUi (p : BitVec 1) : Statement (.uUi p) := ⟨rfl, by revert p; decide⟩
theorem uXid (p : BitVec 1) : Statement (.uXid p) := ⟨rfl, by revert p; decide⟩
theorem uTest (p : BitVec 1) : Statement (.uTest p) := ⟨rfl, by revert p; decide⟩
theorem uUnknown (x : BitVec 6) : Statement (.uUnknown x) := ⟨rfl, by revert x; decide⟩
theorem pidIso8208 : Statement .pidIso8208 := ⟨rfl, rfl⟩
theorem pidCompressedTcpip : Statement .pidCompressedTcpip := ⟨rfl, rfl⟩
theorem pidUncompressedTcpip : Statement .pidUncompressedTcpip := ⟨rfl, rfl⟩
theorem pidSegmentationFragment : Statement .pidSegmentationFragment := ⟨rfl, rfl⟩
theorem pidTexnet : Statement .pidTexnet := ⟨rfl, rfl⟩
theorem pidLinkQuality : Statement .pidLinkQuality := ⟨rfl, rfl⟩
theorem pidAppletalk : Statement .pidAppletalk := ⟨rfl, rfl⟩
theorem pidArpaIp : Statement .pidArpaIp := ⟨rfl, rfl⟩
theorem pidArpaArp : Statement .pidArpaArp := ⟨rfl, rfl⟩
theorem pidNetrom : Statement .pidNetrom := ⟨rfl, rfl⟩
theorem pidNoLayer3 : Statement .pidNoLayer3 := ⟨rfl, rfl⟩
theorem pidEscape : Statement .pidEscape := ⟨rfl, rfl⟩
theorem pidUnknown (p : Byte) : Statement (.pidUnknown p) := ⟨rfl, Nat.and_zero _⟩

end Sys2Proof.Laws.RowBits
end

