-- ==== Sys2Proof/Laws/Run.lean ====
section
/-! SUPPORT. Runs of received bytes on an open instance while both bounds are off: every byte is accepted, and the record after
the run is a fold over its bytes. -/

namespace Sys2Proof.Machine

/-- What a received byte makes of the record of an open instance while nothing is full. -/
def nextDfr (d : Dfr) (b : Byte) : Dfr :=
  match rxClass d.esc b with
  | .nEsc => { d with esc := .escaped }
  | .nDelim => if d.buf = [] then d else { d with q := d.q ++ [d.buf], buf := [] }
  | .nData => { d with buf := d.buf ++ [b] }
  | .eTesc => { d with buf := d.buf ++ [0xDB], esc := .normal }
  | .eTdelim => { d with buf := d.buf ++ [0xC0], esc := .normal }
  | .eViol => { d with buf := [], esc := .normal }

theorem nextDfr_closed (d : Dfr) (b : Byte) : (nextDfr d b).closed = d.closed := by
  unfold nextDfr
  split <;> (try split_ifs) <;> rfl

theorem foldl_nextDfr_closed (d : Dfr) (xs : Bytes) : (xs.foldl nextDfr d).closed = d.closed := by
  induction xs generalizing d with
  | nil => rfl
  | cons b bs ih => rw [List.foldl_cons, ih, nextDfr_closed]

/-- An open instance stays open, and the bounds stay off. -/
theorem OpenUnbounded.setDfr {s : State} {i : Nat} {d d' : Dfr} (h : OpenUnbounded s i d) (hc : d'.closed = d.closed) :
    OpenUnbounded (s.setDfr i d') i d' :=
  ⟨State.getElem?_setDfr h.1 _, by rw [hc]; exact h.2.1, h.2.2⟩

theorem State.setDfr_setDfr (s : State) (i : Nat) (d e : Dfr) : (s.setDfr i d).setDfr i e = s.setDfr i e := by
  simp [State.setDfr]

theorem execRxb_unbounded {s : State} {i : Nat} {d : Dfr} (h : OpenUnbounded s i d) (b : Byte) :
    execRxb i b s = .next (s.setDfr i (nextDfr d b)) := by
  obtain ⟨hd, ho, hb, hq⟩ := h
  rw [execRxb_open hd ho]
  unfold nextDfr
  cases hc : rxClass d.esc b <;> simp only [rxArm, armNEsc, armEViol, endFrame, appendByte, hb, hq, full_none]
  · split_ifs
    · rw [State.setDfr_self hd]
    · simp_all
    · rfl
  all_goals rfl

/-- A run of bytes writes the instance's record, and nothing else. -/
theorem rxs_unbounded {s : State} {i : Nat} {d : Dfr} (h : OpenUnbounded s i d) (xs : Bytes) :
    rxs i xs s = .next (s.setDfr i (xs.foldl nextDfr d)) := by
  induction xs generalizing s d with
  | nil => rw [List.foldl_nil, State.setDfr_self h.1]; rfl
  | cons b bs ih =>
    rw [rxs, exec, execRxb_unbounded h]; dsimp only
    rw [ih (h.setDfr (nextDfr_closed d b)), State.setDfr_setDfr, List.foldl_cons]

/-- What the queue held before a byte stays in front of what the byte adds. -/
theorem nextDfr_queue (d : Dfr) (p : List Bytes) (b : Byte) :
    nextDfr { d with q := p ++ d.q } b = { nextDfr d b with q := p ++ (nextDfr d b).q } := by
  unfold nextDfr
  dsimp only
  split <;> (try split_ifs) <;> simp

theorem foldl_nextDfr_queue (d : Dfr) (p : List Bytes) (xs : Bytes) :
    xs.foldl nextDfr { d with q := p ++ d.q } =
      { xs.foldl nextDfr d with q := p ++ (xs.foldl nextDfr d).q } := by
  induction xs generalizing d with
  | nil => rfl
  | cons b bs ih => rw [List.foldl_cons, nextDfr_queue, ih, List.foldl_cons]

/-- Escaped bytes received in Normal append the bytes they stand for. -/
theorem foldl_nextDfr_escape {d : Dfr} (he : d.esc = .normal) (xs : Bytes) :
    (escape xs).foldl nextDfr d = { d with buf := d.buf ++ xs } := by
  induction xs generalizing d with
  | nil => simp [escape]
  | cons b bs ih =>
    rw [escape, List.foldl_append]
    have : (escapeByte b).foldl nextDfr d = { d with buf := d.buf ++ [b] } := by
      unfold escapeByte
      split_ifs with h1 h2
      · subst h1; cases d; cases he; rfl
      · subst h2; cases d; cases he; rfl
      · simp only [List.foldl_cons, List.foldl_nil, nextDfr]; rw [he, rxClass_data h2 h1]
    rw [this, ih (by exact he)]; simp

end Sys2Proof.Machine
end

