-- ==== Sys2Proof/Laws/UiBuilder.lean ====
section
/-! SUPPORT. What is known of the filler: how many bytes, and their range. -/

namespace Sys2Proof.Machine

theorem filler_length (draw k : Nat) : (filler draw k).length = k := by
  induction k generalizing draw with
  | zero => rfl
  | succ k ih => simp [filler, ih]

theorem filler_range (draw k : Nat) : ∀ b ∈ filler draw k, 0x20 ≤ b.toNat ∧ b.toNat ≤ 0x7E := by
  induction k generalizing draw with
  | zero => simp [filler]
  | succ k ih =>
    simp only [filler, List.mem_cons, forall_eq_or_imp]
    refine ⟨?_, ih _⟩
    have := (Config.fillerDraw draw).isLt
    simp [fillerByte]; omega

end Sys2Proof.Machine
end

