-- ==== Sys2Proof/Tests/Slice0.lean ====
section
/-! SUPPORT. The model's own tests. Words and expected values come from the encodings of 30_encoding.md and the vectors of
95_test_vectors.md; the witnesses at the end meet the hypotheses of the statements. -/

namespace Sys2Proof.Tests

open Sys2Proof.Machine

/-! ### Helpers -/

/-- A state of one instance, with the default configuration unless another is given. -/
def one (esc : Esc) (buf : Bytes) (q : List Bytes) (closed : Bool) (cfg : Config := .default) : State :=
  { State.powerOn 1 cfg with dfr := [{ esc := esc, buf := buf, q := q, closed := closed }] }

/-- The configuration of program P6. -/
def bounded : Config := { Config.default with maxFrameBytes := some 2, queueDepth := some 1 }

def sixteen : Config := { Config.default with ssidClampMax := .sixteen }

def afterDfr : Answer → Option Dfr
  | .next t => t.dfr[0]?
  | .fault _ => none
  | .refused _ => none

def lastResult : Answer → Option Result
  | .next t => t.results.getLast?
  | .fault _ => none
  | .refused _ => none

def theFault : Answer → Option Fault
  | .next _ => none
  | .fault f => some f
  | .refused _ => none

def theRefusal : Answer → Option Refusal
  | .next _ => none
  | .fault _ => none
  | .refused r => some r

def theState : Answer → Option State
  | .next t => some t
  | .fault _ => none
  | .refused _ => none

/-- Whether a message is read as an instruction. -/
def reads (space : Space) (bytes : Bytes) (i : Instr) : Bool := (decode ⟨space, bytes⟩).toOption == some i

/-- Why a message is not read. -/
def unread (space : Space) (bytes : Bytes) : Option DecodeError :=
  match decode ⟨space, bytes⟩ with
  | .error e => some e
  | .ok _ => none

/-- ASCII. -/
def stndrd : Bytes := [0x53, 0x54, 0x4E, 0x44, 0x52, 0x44]
def test0 : Bytes := [0x30, 0x54, 0x45, 0x53, 0x54, 0x30]

/-- The entries D, S and S0 of 95_test_vectors.md 2.9. -/
def entryD : Bytes := [0xA6, 0xA8, 0x9C, 0x88, 0xA4, 0x88, 0xEE]
def entryS : Bytes := [0x60, 0xA8, 0x8A, 0xA6, 0xA8, 0x60, 0x6B]
def entryS0 : Bytes := [0x60, 0xA8, 0x8A, 0xA6, 0xA8, 0x60, 0x6A]
def entryV : Bytes := [0xA4, 0x8A, 0x98, 0x82, 0xB2, 0x40, 0x63]

def addrD : AddrDecoded := { name := stndrd, ssid := 7, cr := 1, ext := 0, rr := 3, raw := entryD }
def addrS : AddrDecoded := { name := test0, ssid := 5, cr := 0, ext := 1, rr := 3, raw := entryS }

/-! ### WellFormed: every check refuses an ill-formed term (R68, R72) -/

theorem test_wf_typb_port : (Instr.typb 16 0).wellFormed = false := by decide
theorem test_wf_typb_command : (Instr.typb 0 16).wellFormed = false := by decide
theorem test_wf_split : (Instr.split []).wellFormed = false := by decide
theorem test_wf_aenc_name : (Instr.aenc [0x80] 0 0 0).wellFormed = false := by decide
theorem test_wf_aenc_hi3 : (Instr.aenc [0x41] 0 8 0).wellFormed = false := by decide
theorem test_wf_aenc_ext : (Instr.aenc [0x41] 0 0 2).wellFormed = false := by decide
theorem test_wf_adec : (Instr.adec [0, 0, 0, 0, 0, 0]).wellFormed = false := by decide
theorem test_wf_uib_src : (Instr.uib [0x80] 0 [0x41] 0 [] 0).wellFormed = false := by decide
theorem test_wf_uib_dst : (Instr.uib [0x41] 0 [0x80] 0 [] 0).wellFormed = false := by decide
theorem test_wf_nData : (Instr.nData 0 0xC0).wellFormed = false ∧ (Instr.nData 0 0xDB).wellFormed = false := by decide
theorem test_wf_eViol : (Instr.eViol 0 0xDC).wellFormed = false ∧ (Instr.eViol 0 0xDD).wellFormed = false := by decide
theorem test_wf_uUnknown : (Instr.uUnknown 0b000000).wellFormed = false ∧ (Instr.uUnknown 0b000100).wellFormed = false := by
  decide
theorem test_wf_pidUnknown : (Instr.pidUnknown 0xF0).wellFormed = false := by decide
theorem test_wf_accepts : (Instr.typb 15 15).wellFormed = true ∧ (Instr.aenc [0x7F] (-3) 7 1).wellFormed = true ∧
    (Instr.uUnknown 0b000001).wellFormed = true ∧ (Instr.nData 0 0xDC).wellFormed = true := by decide

/-! ### Decoding: a word written out for every row -/

-- R71's op codes, operands in the order of R70.
theorem test_decode_rxb : reads .op [0x01, 0x00, 0xC0] (.rxb 0 0xC0) := by decide
theorem test_decode_eof : reads .op [0x02, 0x00] (.eof 0) := by decide
theorem test_decode_pop : reads .op [0x03, 0x01] (.pop 1) := by decide
theorem test_decode_stat : reads .op [0x04, 0x7F] (.stat 127) := by decide
theorem test_decode_rst : reads .op [0x05, 0x80, 0x01] (.rst 128) := by decide
theorem test_decode_enc : reads .op [0x10, 0x00, 0xC0, 0xDB, 0x01] (.enc 0x00 [0xC0, 0xDB, 0x01]) := by decide
theorem test_decode_esc : reads .op [0x11, 0xDB, 0xDC] (.esc [0xDB, 0xDC]) := by decide
theorem test_decode_typb : reads .op [0x12, 0x0C, 0x00] (.typb 12 0) := by decide
theorem test_decode_split : reads .op [0x13, 0x10, 0x41] (.split [0x10, 0x41]) := by decide
theorem test_decode_aenc : reads .op [0x20, 0x01, 0x41, 0x05, 0x03, 0x01] (.aenc [0x41] (-3) 3 1) := by decide
theorem test_decode_adec : reads .op (0x21 :: entryD) (.adec entryD) := by decide
theorem test_decode_hdec : reads .op [0x30, 0x43] (.hdec [0x43]) := by decide
theorem test_decode_cdec : reads .op [0x31, 0x2F] (.cdec 0x2F) := by decide
theorem test_decode_pdec : reads .op [0x32, 0xF0] (.pdec 0xF0) := by decide
theorem test_decode_uib : reads .op [0x40, 0x01, 0x41, 0x0A, 0x02, 0x43, 0x51, 0x00, 0x01, 0x48, 0x01]
    (.uib [0x41] 5 [0x43, 0x51] 0 [0x48] (-1)) := by decide
theorem test_decode_cks : reads .op [0x50, 0x31] (.cks [0x31]) := by decide
-- R57's keys: the low byte, bit 8 in the next byte, the instance.
theorem test_decode_nEsc : reads .rxclass [0xDB, 0x00, 0x00] (.nEsc 0) := by decide
theorem test_decode_nDelim : reads .rxclass [0xC0, 0x00, 0x00] (.nDelim 0) := by decide
theorem test_decode_nData : reads .rxclass [0xDC, 0x00, 0x00] (.nData 0 0xDC) := by decide
theorem test_decode_eTesc : reads .rxclass [0xDD, 0x01, 0x00] (.eTesc 0) := by decide
theorem test_decode_eTdelim : reads .rxclass [0xDC, 0x01, 0x00] (.eTdelim 0) := by decide
theorem test_decode_eViol : reads .rxclass [0x42, 0x01, 0x00] (.eViol 0 0x42) := by decide
-- R63: an I byte is nr (7:5), pf (4), ns (3:1), 0. 0xA4 = 101 0 010 0 and 0x10 = 000 1 000 0.
theorem test_decode_ctrlI : reads .ctrl8 [0xA4] (.ctrlI 2 0 5) ∧ reads .ctrl8 [0x10] (.ctrlI 0 1 0) := by decide
-- An S byte is nr (7:5), three bits not decoded, 01. 0x4D = 010 011 01.
theorem test_decode_ctrlS : reads .ctrl8 [0x4D] (.ctrlS 2 3) := by decide
-- R64: bit 4 is not part of the lookup.
theorem test_decode_uSabme : reads .ctrl8 [0x7F] (.uSabme 1) := by decide
theorem test_decode_uSabm : reads .ctrl8 [0x3F] (.uSabm 1) := by decide
theorem test_decode_uDisc : reads .ctrl8 [0x43] (.uDisc 0) := by decide
theorem test_decode_uDm : reads .ctrl8 [0x1F] (.uDm 1) := by decide
theorem test_decode_uUa : reads .ctrl8 [0x73] (.uUa 1) := by decide
theorem test_decode_uFrmr : reads .ctrl8 [0x97] (.uFrmr 1) := by decide
theorem test_decode_uUi : reads .ctrl8 [0x13] (.uUi 1) := by decide
theorem test_decode_uXid : reads .ctrl8 [0xBF] (.uXid 1) := by decide
theorem test_decode_uTest : reads .ctrl8 [0xF3] (.uTest 1) := by decide
-- 0xEF = 111011 11.
theorem test_decode_uUnknown : reads .ctrl8 [0xEF] (.uUnknown 0b111011) := by decide
theorem test_decode_pidIso8208 : reads .pid8 [0x01] .pidIso8208 := by decide
theorem test_decode_pidCompressedTcpip : reads .pid8 [0x06] .pidCompressedTcpip := by decide
theorem test_decode_pidUncompressedTcpip : reads .pid8 [0x07] .pidUncompressedTcpip := by decide
theorem test_decode_pidSegmentationFragment : reads .pid8 [0x08] .pidSegmentationFragment := by decide
theorem test_decode_pidTexnet : reads .pid8 [0xC3] .pidTexnet := by decide
theorem test_decode_pidLinkQuality : reads .pid8 [0xC4] .pidLinkQuality := by decide
theorem test_decode_pidAppletalk : reads .pid8 [0xCA] .pidAppletalk := by decide
theorem test_decode_pidArpaIp : reads .pid8 [0xCC] .pidArpaIp := by decide
theorem test_decode_pidArpaArp : reads .pid8 [0xCD] .pidArpaArp := by decide
theorem test_decode_pidNetrom : reads .pid8 [0xCF] .pidNetrom := by decide
theorem test_decode_pidNoLayer3 : reads .pid8 [0xF0] .pidNoLayer3 := by decide
theorem test_decode_pidEscape : reads .pid8 [0xFF] .pidEscape := by decide
theorem test_decode_pidUnknown : reads .pid8 [0xCB] (.pidUnknown 0xCB) := by decide
-- 95 section 2.12, and bytes that are no request.
theorem test_decode_badOp : [0x00, 0x06, 0x14, 0xFF].all (fun b => unread .op [b] == some .badOp) := by decide
theorem test_decode_malformed : unread .op [] = some .malformed ∧ unread .op [0x01, 0x00] = some .malformed ∧
    unread .op [0x31, 0x00, 0x00] = some .malformed ∧ unread .op [0x02, 0x80, 0x00] = some .malformed ∧
    unread .rxclass [0xDB, 0x02, 0x00] = some .malformed := by decide

/-! ### The deframer (95 sections 2.1 and 2.2) -/

theorem test_rxb_escape : afterDfr (exec (.rxb 0 0xDB) (one .normal [0x41] [] false)) =
    some ⟨.escaped, [0x41], [], false⟩ := by decide
theorem test_rxb_closed : theFault (exec (.rxb 0 0x00) (one .normal [] [] true)) = some .stuckClosed := by decide
theorem test_nEsc : afterDfr (exec (.nEsc 0) (one .normal [0x41] [] false)) = some ⟨.escaped, [0x41], [], false⟩ := by decide
theorem test_nEsc_other_key : theRefusal (exec (.nEsc 0) (one .escaped [0x41] [] false)) = some .rowNotSelected := by decide
theorem test_nDelim : afterDfr (exec (.nDelim 0) (one .normal [0x00, 0x41] [] false)) =
    some ⟨.normal, [], [[0x00, 0x41]], false⟩ := by decide
theorem test_nDelim_full : theFault (exec (.nDelim 0) (one .normal [0x42] [[0x41]] false bounded)) = some .holdQueueFull := by
  decide
theorem test_nData : afterDfr (exec (.nData 0 0xDC) (one .normal [] [] false)) = some ⟨.normal, [0xDC], [], false⟩ := by decide
theorem test_nData_full : theFault (exec (.nData 0 0x63) (one .normal [0x61, 0x62] [] false bounded)) =
    some .stuckBufferFull := by decide
theorem test_eTesc : afterDfr (exec (.eTesc 0) (one .escaped [0x41] [] false)) =
    some ⟨.normal, [0x41, 0xDB], [], false⟩ := by decide
theorem test_eTdelim : afterDfr (exec (.eTdelim 0) (one .escaped [0x41] [] false)) =
    some ⟨.normal, [0x41, 0xC0], [], false⟩ := by decide
theorem test_eViol_delimiter : afterDfr (exec (.eViol 0 0xC0) (one .escaped [0x41] [] false)) =
    some ⟨.normal, [], [], false⟩ := by decide
theorem test_eViol_escape : afterDfr (exec (.rxb 0 0xDB) (one .escaped [0x41] [] false)) =
    some ⟨.normal, [], [], false⟩ := by decide
theorem test_eof : afterDfr (exec (.eof 0) (one .escaped [0x00, 0x41] [[0x43]] false)) =
    some ⟨.normal, [], [[0x43]], true⟩ := by decide
theorem test_eof_closed : theFault (exec (.eof 0) (one .normal [] [] true)) = some .stuckClosed := by decide
theorem test_pop : let a := exec (.pop 0) (one .normal [] [[0x00, 0x41], [0x10, 0x42]] false)
    lastResult a = some (.frame [0x00, 0x41]) ∧ afterDfr a = some ⟨.normal, [], [[0x10, 0x42]], false⟩ := by decide
theorem test_pop_empty : theFault (exec (.pop 0) (one .normal [0x41] [] false)) = some .holdQueueEmpty ∧
    theFault (exec (.pop 0) (one .normal [] [] true)) = some .stuckClosedEmpty := by decide
theorem test_stat : lastResult (exec (.stat 0) (one .escaped [0x00] [] false)) =
    some (.status { escaped := true, bufLen := 1, qLen := 0, closed := false }) := by decide
theorem test_rst : afterDfr (exec (.rst 0) (one .escaped [0x41] [[0x43]] true)) = some ⟨.normal, [], [], false⟩ := by decide
theorem test_rst_badInst : theRefusal (exec (.rst 1) State.reset) = some .badInst := by decide
-- X8 and the first chunk of P2.
theorem test_rxs_idle : afterDfr (rxs 0 [0xC0, 0xC0, 0xC0, 0x00, 0x41, 0xC0, 0xC0] State.reset) =
    some ⟨.normal, [], [[0x00, 0x41]], false⟩ := by decide

/-! ### The encoder (95 sections 2.3 and 2.4) -/

theorem test_esc : lastResult (exec (.esc [0xDB, 0xDC]) State.reset) = some (.bytes [0xDB, 0xDD, 0xDC]) := by decide
theorem test_enc : lastResult (exec (.enc 0x00 [0xC0, 0xDB, 0x01]) State.reset) =
    some (.bytes [0xC0, 0x00, 0xDB, 0xDC, 0xDB, 0xDD, 0x01, 0xC0]) := by decide
theorem test_typb : lastResult (exec (.typb 13 11) State.reset) = some (.byte 0xDB) := by decide
theorem test_typb_range : theRefusal (exec (.typb 0 16) State.reset) = some .operandRange := by decide
theorem test_split : lastResult (exec (.split [0x42]) State.reset) =
    some (.split { type := 0x42, port := 4, command := 2, body := [] }) := by decide
theorem test_split_empty : theRefusal (exec (.split []) State.reset) = some .emptyFrame := by decide

/-! ### The address codec (95 sections 2.5 and 2.6) -/

theorem test_aenc : lastResult (exec (.aenc stndrd 7 0b111 0) State.reset) = some (.bytes entryD) ∧
    lastResult (exec (.aenc [0x61, 0x62, 0x63] 3 0b011 0) State.reset) =
      some (.bytes [0x82, 0x84, 0x86, 0x40, 0x40, 0x40, 0x66]) := by decide
theorem test_aenc_clamp : lastResult (exec (.aenc [0x41] (-3) 0b011 0) State.reset) =
      some (.bytes [0x82, 0x40, 0x40, 0x40, 0x40, 0x40, 0x60]) ∧
    lastResult (exec (.aenc [0x41] 15 0b011 0) (one .normal [] [] false sixteen)) =
      some (.bytes [0x82, 0x40, 0x40, 0x40, 0x40, 0x40, 0x7E]) ∧
    theRefusal (exec (.aenc [0x41] 16 0b011 0) (one .normal [] [] false sixteen)) = some .ssidSixteen := by decide
theorem test_adec : lastResult (exec (.adec [0x83, 0x00, 0x00, 0x00, 0x00, 0x00, 0xFF]) State.reset) =
    some (.addr { name := [0x41], ssid := 15, cr := 1, ext := 1, rr := 3, raw := [0x83, 0, 0, 0, 0, 0, 0xFF] }) := by decide
theorem test_adec_inner_space : lastResult (exec (.adec [0x82, 0x40, 0x84, 0x40, 0x40, 0x40, 0x1E]) State.reset) =
    some (.addr { name := [0x41, 0x20, 0x42], ssid := 15, cr := 0, ext := 0, rr := 0,
                  raw := [0x82, 0x40, 0x84, 0x40, 0x40, 0x40, 0x1E] }) := by decide

/-! ### The header decoder (95 sections 2.7 to 2.9) -/

theorem test_cdec : lastResult (exec (.cdec 0xFE) State.reset) = some (.frameType (.i 7 1 7)) ∧
    lastResult (exec (.cdec 0xF1) State.reset) = some (.frameType (.s 7)) ∧
    lastResult (exec (.cdec 0x2F) State.reset) = some (.frameType (.u .sabm)) := by decide
theorem test_ctrlI : lastResult (exec (.ctrlI 2 0 5) State.reset) = some (.frameType (.i 2 0 5)) := by decide
theorem test_ctrlS : lastResult (exec (.ctrlS 2 3) State.reset) = some (.frameType (.s 2)) := by decide
theorem test_uUnknown : lastResult (exec (.uUnknown 0b111011) State.reset) = some (.frameType (.u .unknown)) := by decide
theorem test_uUnknown_other_row : theRefusal (exec (.uUnknown 0b000000) State.reset) = some .rowNotSelected := by decide
theorem test_pdec : lastResult (exec (.pdec 0xCF) State.reset) = some (.pidKind .netrom) ∧
    lastResult (exec (.pdec 0x42) State.reset) = some (.pidKind .unknown) := by decide
theorem test_pidUnknown : lastResult (exec (.pidUnknown 0xCE) State.reset) = some (.pidKind .unknown) := by decide
-- X5, and an incomplete chain.
theorem test_hdec : lastResult (exec (.hdec (entryD ++ entryS ++ [0x03, 0xF0, 0x48])) State.reset) =
    some (.header { chain := [⟨.destination, addrD⟩, ⟨.source, addrS⟩], complete := true, control := some 0x03,
                    ftype := some (.u .ui), pid := some ⟨0xF0, .noLayer3⟩, payload := [0x48] }) := by decide
theorem test_hdec_incomplete : lastResult (exec (.hdec (entryD ++ [0x01, 0x02, 0x03])) State.reset) =
    some (.header { chain := [⟨.destination, addrD⟩], complete := false, control := none, ftype := none, pid := none,
                    payload := [0x01, 0x02, 0x03] }) := by decide

/-! ### The UI builder (95 section 2.10) -/

theorem test_uib : lastResult (exec (.uib test0 5 stndrd 7 [0x48, 0x49] 2) State.reset) =
    some (.bytes (entryD ++ entryS ++ [0x03, 0xF0, 0x48, 0x49])) := by decide
theorem test_uib_order : theRefusal (exec (.uib [0x80] 0 [0x43, 0x51] 16 [] 0) (one .normal [] [] false sixteen)) =
    some .ssidSixteen := by decide

/-! ### The step, and the host's two names -/

def transport0 : Agent := { kind := .transport, number := 0 }
def consumer0 : Agent := { kind := .consumer, number := 0 }

/-- P6 where its RXB is held: the transport waits with a delimiter, the consumer asks for a frame. -/
def held : State :=
  { one .normal [0x42] [[0x41]] false bounded with
    pending := [⟨transport0, ⟨.op, [0x01, 0x00, 0xC0]⟩⟩, ⟨consumer0, ⟨.op, [0x03, 0x00]⟩⟩] }

/-- A request of the same agent behind a stuck one. -/
def blocked : State :=
  { one .normal [] [] true with
    pending := [⟨transport0, ⟨.op, [0x01, 0x00, 0xC0]⟩⟩, ⟨transport0, ⟨.op, [0x04, 0x00]⟩⟩] }

theorem test_step_serves_past_held : (theState (step held)).map (fun t => (t.results, t.pending.length)) =
    some ([.frame [0x41]], 1) := by decide
theorem test_step_blocks_own_agent : theState (step blocked) = some blocked := by decide
/-- Two agents on two instances: one request held and one stuck. The model calls it blocked (log entry 15). -/
def heldAndStuck : State :=
  { State.powerOn 2 .default with
    dfr := [⟨.normal, [], [], false⟩, ⟨.normal, [], [], true⟩],
    pending := [⟨consumer0, ⟨.op, [0x03, 0x00]⟩⟩, ⟨transport0, ⟨.op, [0x02, 0x01]⟩⟩] }

theorem test_standing_held_and_stuck : standing heldAndStuck = .blocked := by decide

-- 95 section 2.12: a bad source name under the default clamp, with a destination SSID above 15.
theorem test_uib_source_name : theRefusal (exec (.uib [0x80] 0 [0x43, 0x51] 16 [] 0) State.reset) = some .nameNot7Bit := by
  decide

theorem test_standing : standing held = .running ∧ standing blocked = .stuck ∧ standing State.reset = .finished := by decide

/-- The op rows, with operand bytes of zeros. -/
theorem test_table_op_rows : decodeTableWord 8 0x01 = some (.rxb 0 0) ∧ decodeTableWord 8 0x20 = some (.aenc [] 0 0 0) ∧
    decodeTableWord 8 0x21 = some (.adec [0, 0, 0, 0, 0, 0, 0]) ∧ decodeTableWord 8 0x40 = some (.uib [] 0 [] 0 [] 0) ∧
    decodeTableWord 8 0x50 = some (.cks []) := by decide
theorem test_table_other_rows : decodeTableWord 16 0x1DD = some (.eTesc 0) ∧ decodeTableWord 9 0x0C0 = some (.nDelim 0) ∧
    decodeTableWord 8 0x6F = some (.uSabme 0) ∧ decodeTableWord 8 0xF0 = some .pidNoLayer3 ∧
    decodeTableWord 8 0x100 = none := by decide
theorem test_fetch_runs_key : (theState (step (State.reset.withFetchWord 16 0x1DD))).map (fun t => (t.dfr, t.pending)) =
    some ([⟨.normal, [0xDB], [], false⟩], []) := by decide
theorem test_fetch_runs_op : (theState (step (State.reset.withFetchWord 8 0x13))).map (fun t => t.results) =
    some [.split { type := 0, port := 0, command := 0, body := [] }] := by decide

/-! ### Witnesses: states and operands that meet the hypotheses of the statements -/

/-- Two open instances, the first with a frame queued. -/
def two : State :=
  { State.powerOn 2 .default with
    dfr := [⟨.normal, [0x41], [[0x00]], false⟩, ⟨.escaped, [0x42], [], false⟩] }

/-- A request that is done, before one of another agent. -/
def serving : State := { two with pending := [⟨consumer0, ⟨.op, [0x03, 0x00]⟩⟩, ⟨transport0, ⟨.op, [0x05, 0x01]⟩⟩] }

/-- What `serving` becomes. -/
def served : State :=
  { two with dfr := [⟨.normal, [0x41], [], false⟩, ⟨.escaped, [0x42], [], false⟩],
             pending := [⟨transport0, ⟨.op, [0x05, 0x01]⟩⟩], results := [.frame [0x00]] }

theorem witness_reset : 0 < 1 ∧ (State.powerOn 1 bounded).dfr[0]? = some Dfr.reset ∧
    two.dfr[1]? = some ⟨.escaped, [0x42], [], false⟩ := by decide

theorem witness_power_on : 1 ≤ 2 ∧ bounded.Admitted := by decide

theorem serving_inv : serving.Inv := by
  simp [State.Inv, serving, two, State.powerOn, Config.Admitted, Config.default, Dfr.Inv, within]

theorem witness_step : serving.Inv ∧ step serving = .next served := ⟨serving_inv, rfl⟩

/-- The other parts of the invariant: finite bounds reached, and a closed instance. -/
theorem witness_invariant_at_bounds : (one .normal [0x61, 0x62] [[0x41]] false bounded).Inv ∧
    (one .normal [] [[0x41]] true bounded).Inv := by
  simp [State.Inv, one, bounded, State.powerOn, Config.Admitted, Config.default, Dfr.Inv, within]

theorem witness_step_runs : decode ⟨.op, [0x03, 0x00]⟩ = .ok (.pop 0) ∧
    exec (.pop 0) { serving with pending := served.pending } = .next served := ⟨rfl, rfl⟩
theorem witness_step_refuses : decode ⟨.op, [0x13]⟩ = .ok (.split []) ∧
    exec (.split []) State.reset = .refused .emptyFrame := ⟨rfl, rfl⟩
theorem witness_step_waits : held.pending.length = 2 ∧ decode ⟨.op, [0x01, 0x00, 0xC0]⟩ = .ok (.rxb 0 0xC0) ∧
    exec (.rxb 0 0xC0) { held with pending := held.pending.tail } = .fault .holdQueueFull := ⟨rfl, rfl, rfl⟩
theorem witness_step_idle : State.reset.pending = [] ∧ step State.reset = .next State.reset := ⟨rfl, rfl⟩

/-- P6 where its RXB is stuck, with a delimiter of a second agent for the same instance behind it, and the controller's RST. -/
def stuckFull : State :=
  { one .normal [0x61, 0x62] [] false bounded with
    pending := [⟨transport0, ⟨.op, [0x01, 0x00, 0x63]⟩⟩, ⟨{ kind := .transport, number := 1 }, ⟨.op, [0x01, 0x00, 0xC0]⟩⟩] }

def controller0 : Agent := { kind := .controller, number := 0 }
def stuckFullRst : State := { stuckFull with pending := stuckFull.pending ++ [⟨controller0, ⟨.op, [0x05, 0x00]⟩⟩] }

-- R46, R139: only RST ends BufferFull, and the stuck byte is then accepted (95 program P6).
theorem test_second_agent_stays_behind : theState (step stuckFull) = some stuckFull := by decide
theorem test_rst_ends_buffer_full :
    ((theState (step stuckFullRst)).bind fun t => theState (step t)).bind (fun t => t.dfr[0]?) =
      some ⟨.normal, [0x63], [], false⟩ := by decide

theorem witness_stuck_full : exec (.rxb 0 0x63) stuckFullRst = .fault .stuckBufferFull ∧
    decode ⟨.op, [0x01, 0x00, 0x63]⟩ = .ok (.rxb 0 0x63) ∧ transportInst (.rxb 0 0x63) = some 0 ∧
    (theState (step stuckFullRst)).isSome = true ∧ theState (step stuckFull) = some stuckFull :=
  ⟨rfl, rfl, rfl, by decide, by decide⟩
theorem witness_waits_same_input : exec (.rxb 0 0x63) stuckFull = .fault .stuckBufferFull ∧
    transportInst (.rxb 0 0x63) = some 0 ∧ transportInst (.rxb 0 0xC0) = some 0 := ⟨rfl, rfl, rfl⟩

/-- A step that serves nothing, every agent's oldest request waiting; and one that serves past a request that waits. -/
theorem witness_serves_nothing : step blocked = .next blocked ∧ heads [] blocked.pending = blocked.pending.take 1 ∧
    (heads [] blocked.pending).map (waitOf blocked) = [some .stuckClosed] := ⟨rfl, rfl, rfl⟩
theorem witness_serves_past : (theState (step held)).isSome = true ∧ held.pending.head?.bind (waitOf held) = some .holdQueueFull := by
  decide

/-- A waiting request before one of its own agent (`blocked`), and before one of another (`held`). -/
theorem witness_waits_same_agent : exec (.rxb 0 0xC0) blocked = .fault .stuckClosed ∧
    decode ⟨.op, [0x04, 0x00]⟩ = .ok (.stat 0) := ⟨rfl, rfl⟩
theorem witness_waits_other_agent : transport0 ≠ consumer0 ∧ transportInst (.pop 0) = none ∧ exec (.rxb 0 0xC0) held = .fault .holdQueueFull ∧
    theState (exec (.pop 0) { held with pending := held.pending.take 1 }) ≠ none := by
  refine ⟨by decide, rfl, rfl, by decide⟩

theorem witness_encode : (Instr.uib [0x7F] (-3) [] 16 [0xC0] 300).wellFormed = true ∧
    (Instr.typb 15 15).wellFormed = true ∧ (Instr.uUnknown 0b111011).wellFormed = true := by decide
theorem witness_decode : decode ⟨.op, [0x05, 0x80, 0x01]⟩ = .ok (.rst 128) := rfl

theorem witness_badOp : (0x06 : Byte) ∉ ([0x01, 0x02, 0x03, 0x04, 0x05, 0x10, 0x11, 0x12, 0x13, 0x20, 0x21, 0x30, 0x31, 0x32,
    0x40, 0x50] : Bytes) ∧
    ({ State.reset with pending := [⟨placer, ⟨.op, [0x06]⟩⟩] } : State).pending = ⟨placer, ⟨.op, 0x06 :: []⟩⟩ :: [] := by decide
theorem witness_domain : (encode (.aenc [0x41] 16 3 1)).space = .op ∧ ¬ Admits (one .normal [] [] false sixteen)
    (.aenc [0x41] 16 3 1) ∧ Admits (one .normal [] [] false sixteen) (.aenc [0x41] 15 3 1) := by
  refine ⟨rfl, fun h => h.2.2 16 (by simp [ssids]) (by decide), by decide, by simp [target], by simp [ssids]; decide⟩
theorem witness_refusals : target (.nEsc 1) = some 1 ∧ State.reset.dfr.length ≤ 1 ∧ target (.pop 2) = some 2 ∧
    two.dfr.length ≤ 2 ∧ 15 < 16 ∧ ([0x41, 0x41] : Bytes).length ≠ 7 := by decide
theorem witness_aenc_checks : (∃ c ∈ ([0x41, 0x80] : Bytes), 127 < c.toNat) ∧ (∀ c ∈ ([0x7F] : Bytes), c.toNat ≤ 127) ∧
    (7 < 8 ∨ 1 < 0) ∧ (7 < 7 ∨ 1 < 2) ∧ 7 ≤ 7 ∧ 1 ≤ 1 ∧ (one .normal [] [] false sixteen).cfg.ssidClampMax = .sixteen ∧
    (16 : Int) ≤ 16 := by decide
theorem witness_uib_checks : (∃ c ∈ ([0x80] : Bytes), 127 < c.toNat) ∧ (∀ c ∈ ([0x43, 0x51] : Bytes), c.toNat ≤ 127) ∧
    (one .normal [] [] false sixteen).cfg.ssidClampMax = .sixteen ∧ (16 : Int) ≤ 16 ∧
    clampSsid .sixteen 15 ≠ 16 ∧ clampSsid .fifteen 16 ≠ 16 := by decide

/-- An instance in each escape state, and the bounds that leave room: one byte below the buffer's, an empty queue. -/
theorem witness_normal : (one .normal [0x41] [] false bounded).dfr[0]? = some ⟨.normal, [0x41], [], false⟩ ∧
    (∀ m, bounded.maxFrameBytes = some m → 1 < m) ∧ (∀ m, bounded.queueDepth = some m → 0 < m) ∧
    ([0x41] : Bytes) ≠ [] ∧ (0xDC : Byte) ≠ 0xC0 ∧ (0xDC : Byte) ≠ 0xDB := by
  refine ⟨rfl, ?_, ?_, by decide, by decide, by decide⟩ <;> simp [bounded]
theorem witness_idle : (one .normal [] [[0x41]] false bounded).dfr[0]? = some ⟨.normal, [], [[0x41]], false⟩ := by decide
theorem witness_no_instance : State.reset.dfr.length ≤ 1 ∧ two.dfr.length ≤ 2 := by decide
theorem witness_escaped : (one .escaped [0x41] [] false bounded).dfr[0]? = some ⟨.escaped, [0x41], [], false⟩ ∧
    (∀ m, bounded.maxFrameBytes = some m → 1 < m) ∧ (0xC0 : Byte) ≠ 0xDC ∧ (0xC0 : Byte) ≠ 0xDD := by
  refine ⟨rfl, ?_, by decide, by decide⟩; simp [bounded]

/-- Accepted bytes: one that enters Escaped and one that leaves it. -/
theorem witness_accepted_byte : (theState (exec (.rxb 0 0xDB) State.reset)).isSome = true ∧
    (theState (exec (.rxb 0 0xDB) (one .escaped [] [] false))).isSome = true := by decide

theorem witness_full_buffer : theFault (exec (.rxb 0 0x63) (one .normal [0x61, 0x62] [[0x41]] false bounded)) =
      some .stuckBufferFull ∧
    theFault (exec (.rxb 0 0xDC) (one .escaped [0x61, 0x62] [] false bounded)) = some .stuckBufferFull ∧
    theFault (exec (.rxb 0 0x00) (one .escaped [0x61, 0x62] [] false bounded)) = none ∧
    ([[0x41]] : List Bytes) ≠ [] := by decide
theorem witness_full_queue : bounded.queueDepth = some 1 ∧ ([[0x41]] : List Bytes).length = 1 ∧
    theFault (exec (.rxb 0 0xC0) (one .normal [0x42] [[0x41]] false bounded)) = some .holdQueueFull ∧
    theFault (exec (.rxb 0 0xC0) (one .normal [] [[0x41]] false bounded)) = none ∧
    (theState (exec (.pop 0) (one .normal [0x42] [[0x41]] false bounded))).isSome = true := by decide

theorem witness_closed : (one .normal [] [[0x43]] true).dfr[0]? = some ⟨.normal, [], [[0x43]], true⟩ ∧
    (one .normal [] [] true).dfr[0]? = some ⟨.normal, [], [], true⟩ ∧
    (one .escaped [0x00] [] false).dfr[0]? = some ⟨.escaped, [0x00], [], false⟩ := by decide
theorem witness_other_instance : two.dfr[0]? = some ⟨.normal, [0x41], [[0x00]], false⟩ ∧ 1 ≠ 0 := by decide

theorem witness_open_normal : OpenUnbounded (one .normal [0x41] [[0x43]] false) 0 ⟨.normal, [0x41], [[0x43]], false⟩ :=
  ⟨rfl, rfl, rfl, rfl⟩
theorem witness_open_escaped : OpenUnbounded (one .escaped [0x41] [] false) 0 ⟨.escaped, [0x41], [], false⟩ ∧
    (0xDC : Byte) ≠ 0xC0 ∧ (0xDC : Byte) ≠ 0xDB := ⟨⟨rfl, rfl, rfl, rfl⟩, by decide, by decide⟩
theorem witness_open_between_frames : OpenUnbounded State.reset 0 Dfr.reset ∧ Dfr.reset.esc = .normal ∧ Dfr.reset.buf = [] :=
  ⟨⟨rfl, rfl, rfl, rfl⟩, rfl, rfl⟩

theorem witness_typb : 15 ≤ 15 ∧ 0 ≤ 15 ∧ (15 < 16 ∨ 15 < 0) ∧ (15 < 0 ∨ 15 < 16) := by decide
/-- Both clamps: any SSID under 15, one below 16 under 16; a name longer than six and an empty one. -/
theorem witness_aenc : (∀ c ∈ ([0x61, 0x7A, 0x60, 0x7B, 0x7F, 0x00, 0x41] : Bytes), c.toNat ≤ 127) ∧
    (∀ c ∈ ([] : Bytes), c.toNat ≤ 127) ∧ 7 ≤ 7 ∧ 1 ≤ 1 ∧
    (Config.default.ssidClampMax = .sixteen → (99 : Int) < 16) ∧ (sixteen.ssidClampMax = .sixteen → (15 : Int) < 16) := by
  decide
theorem witness_adec : (entryD.take 6).length = 6 ∧ (entryD.take 6).length ≠ 7 ∧ (entryD ++ [0x00]).length ≠ 7 := by decide
theorem test0_callName : CallName test0 := ⟨by decide, by decide, by unfold isAlnum; decide⟩
theorem stndrd_callName : CallName stndrd := ⟨by decide, by decide, by unfold isAlnum; decide⟩
theorem witness_round_trip : (CallName test0 ∨ test0 = []) ∧ (CallName [0x41] ∨ ([0x41] : Bytes) = []) ∧
    (CallName [] ∨ ([] : Bytes) = []) ∧ 15 ≤ 15 ∧ 7 ≤ 7 ∧ 1 ≤ 1 :=
  ⟨.inl test0_callName, .inl ⟨by decide, by decide, by unfold isAlnum; decide⟩, .inr rfl, by decide⟩

/-- A control byte of each class, at the values where the classes meet. -/
theorem witness_control_classes : (0xFE : Byte).toNat % 2 = 0 ∧ (0x01 : Byte).toNat % 4 = 1 ∧ (0x03 : Byte).toNat % 4 = 3 ∧
    (0xFD : Byte).toNat % 4 = 1 ∧ (0xFF : Byte).toNat % 4 = 3 := by decide
theorem witness_unknown_rows : (Instr.uUnknown 0b000001).wellFormed = true ∧ (Instr.uUnknown 0b111000).wellFormed = false ∧
    (Instr.pidUnknown 0x00).wellFormed = true ∧ (Instr.pidUnknown 0xFF).wellFormed = false := by decide

theorem entryD_group : IsGroup false entryD := ⟨rfl, _, rfl, rfl⟩
theorem entryS0_group : IsGroup false entryS0 := ⟨rfl, _, rfl, rfl⟩
theorem entryS_group : IsGroup true entryS := ⟨rfl, _, rfl, rfl⟩
theorem entryV_group : IsGroup true entryV := ⟨rfl, _, rfl, rfl⟩
theorem witness_chain : CompleteChain [entryD, entryS0] entryV ∧ CompleteChain [] entryS :=
  ⟨⟨by simp [entryD_group, entryS0_group], entryV_group⟩, by simp, entryS_group⟩
theorem witness_incomplete_chain : (∀ a ∈ [entryD], IsGroup false a) ∧ ([1, 2, 3, 4, 5, 6] : Bytes).length < 7 :=
  ⟨by simp [entryD_group], by decide⟩
/-- Control bytes with and without a protocol ID, and bytes after them or none. -/
theorem witness_pid_presence : (0x22 : Byte).toNat % 2 = 0 ∧
    lastResult (exec (.cdec 0x13) State.reset) = some (.frameType (.u .ui)) ∧
    lastResult (exec (.cdec 0x3F) State.reset) = some (.frameType (.u .sabm)) ∧ ¬ (0x3F : Byte).toNat % 2 = 0 := by decide
theorem witness_termination : IsGroup false entryD ∧ IsGroup true entryS ∧ IsGroup false entryS0 ∧ IsGroup true entryV :=
  ⟨entryD_group, entryS_group, entryS0_group, entryV_group⟩

theorem witness_uib : (∀ c ∈ test0, c.toNat ≤ 127) ∧ (∀ c ∈ ([] : Bytes), c.toNat ≤ 127) ∧
    (sixteen.ssidClampMax = .sixteen → (15 : Int) < 16 ∧ (-1 : Int) < 16) ∧
    (Config.default.ssidClampMax = .sixteen → (20 : Int) < 16 ∧ (0 : Int) < 16) := by decide
theorem witness_builder_decoder : CallName test0 ∧ CallName stndrd ∧ 5 ≤ 15 ∧ 15 ≤ 15 :=
  ⟨test0_callName, stndrd_callName, by decide⟩

/-- Every kind of operation on an instance, accepted. -/
theorem witness_target_frames : [Instr.eof 0, .pop 0, .stat 0, .rst 0, .rxb 0 0xC0, .nData 0 0x42].all (fun i =>
    target i == some 0 && (theState (exec i two)).isSome) := by decide
theorem witness_stateless : target (.esc [0xC0]) = none ∧ (theState (exec (.esc [0xC0]) two)).isSome = true ∧
    target (.uib test0 5 stndrd 7 [] 3) = none := by decide
theorem witness_uib_accepted : ∃ t, exec (.uib test0 5 stndrd 7 [] 3) two = .next t := ⟨_, rfl⟩
theorem witness_independent : target (.aenc test0 5 3 1) = none ∧ two.cfg = State.reset.cfg ∧
    (theState (exec (.aenc test0 5 3 1) two)).isSome = true := by decide
theorem witness_commute : (∀ inst, target (.rxb 0 0xC0) = some inst → target (.eTesc 1) ≠ some inst) ∧
    (theState (exec (.rxb 0 0xC0) two)).isSome = true ∧ (theState (exec (.eTesc 1) two)).isSome = true := by
  refine ⟨?_, by decide, by decide⟩
  simp [target]
theorem witness_frames_in_order : target (.pop 0) = some 0 ∧ (Instr.pop 0) ≠ .rst 0 ∧
    two.dfr[0]? = some ⟨.normal, [0x41], [[0x00]], false⟩ ∧ (theState (exec (.pop 0) two)).isSome = true := by decide
theorem witness_rst_ends_stuck : (one .normal [0x61, 0x62] [] false bounded).dfr[0]? = some ⟨.normal, [0x61, 0x62], [], false⟩ ∧
    bounded.maxFrameBytes ≠ some 0 := by decide

end Sys2Proof.Tests
end

/-! ### What an accepted operation does, by kind

An operation on an instance reads the configuration and its instance's record, and nothing else; an operation of a stateless
unit reads the configuration, and UIB also the draw counter (10_state.md R20, R34; 20_memory.md R45). -/

namespace Sys2Proof.Machine

/-- A byte that an instance's record admits is accepted by RXB: the converse of `execRxb_next`. -/
theorem execRxb_of_step {inst : Nat} {b : Byte} {s : State} {d d' : Dfr} (hd : s.dfr[inst]? = some d)
    (ho : d.closed = false) (h : RxStep s.cfg d b d') : execRxb inst b s = .next (s.setDfr inst d') := by
  rw [execRxb_open hd ho]
  cases h with
  | escape he hb => simp [he, hb, rxClass, rxArm, armNEsc]
  | idle he hb hbuf => simp [he, hb, hbuf, rxClass, rxArm, endFrame, State.setDfr_self hd]
  | push he hb hbuf hq => simp [he, hb, hbuf, hq, rxClass, rxArm, endFrame]
  | data he h1 h2 hf => simp [he, rxClass_data h1 h2, rxArm, appendByte_room hf]
  | transEscape he hb hf => simp [he, hb, rxClass, rxArm, appendByte_room hf]
  | transDelimiter he hb hf => simp [he, hb, rxClass, rxArm, appendByte_room hf]
  | violation he h1 h2 => simp [he, rxClass_violation h1 h2, rxArm, armEViol]

/-- A row of the RXCLASS table that is accepted in one state is RXB wherever the instance has the same record. -/
theorem rxRow_eq_execRxb {c : RxClass} {inst : Nat} {b : Byte} {s t u : State} (h : rxRow c inst b s = .next t)
    (hu : u.dfr[inst]? = s.dfr[inst]?) : rxRow c inst b u = execRxb inst b u := by
  obtain ⟨d, hd, h⟩ := withInst_next h
  split at h
  · exact rxRow_selected (hu.trans hd) ‹_›
  · cases h

/-- RXB or a row of it, accepted, is one byte received, here and wherever the instance has the same record. -/
theorem exec_rx_eq_execRxb {i : Instr} {inst : Nat} {s t : State} (hi : target i = some inst) (hr : isRx i = true)
    (h : exec i s = .next t) : ∃ b, ∀ u : State, u.dfr[inst]? = s.dfr[inst]? → exec i u = execRxb inst b u := by
  cases i <;> simp only [isRx, target, Option.some.injEq, reduceCtorEq, Bool.false_eq_true] at hi hr <;> subst hi
  case rxb b => exact ⟨b, fun _ _ => rfl⟩
  all_goals exact ⟨_, fun _ hu => rxRow_eq_execRxb h hu⟩

/-- What an accepted operation on an instance makes of the instance's record, and the results it returns. -/
inductive InstStep (cfg : Config) (d : Dfr) : Instr → Dfr → List Result → Prop where
  | byte {i : Instr} {b : Byte} {d' : Dfr} : isRx i = true → d.closed = false → RxStep cfg d b d' → InstStep cfg d i d' []
  | eof {inst : Nat} : d.closed = false →
      InstStep cfg d (.eof inst) { d with buf := [], esc := .normal, closed := true } []
  | pop {inst : Nat} {f : Bytes} {rest : List Bytes} : d.q = f :: rest →
      InstStep cfg d (.pop inst) { d with q := rest } [.frame f]
  | stat {inst : Nat} : InstStep cfg d (.stat inst) d [.status (statusOf d)]
  | rst {inst : Nat} : InstStep cfg d (.rst inst) Dfr.reset []

/-- The state after an operation on instance `inst` that leaves it the record `d` and returns the results `rs`. -/
def State.afterInst (s : State) (inst : Nat) (d : Dfr) (rs : List Result) : State :=
  { s with dfr := s.dfr.set inst d, results := s.results ++ rs }

@[simp] theorem State.afterInst_cfg (s : State) (inst : Nat) (d : Dfr) (rs : List Result) :
    (s.afterInst inst d rs).cfg = s.cfg := rfl
@[simp] theorem State.afterInst_dfr (s : State) (inst : Nat) (d : Dfr) (rs : List Result) :
    (s.afterInst inst d rs).dfr = s.dfr.set inst d := rfl
@[simp] theorem State.afterInst_pending (s : State) (inst : Nat) (d : Dfr) (rs : List Result) :
    (s.afterInst inst d rs).pending = s.pending := rfl
@[simp] theorem State.afterInst_results (s : State) (inst : Nat) (d : Dfr) (rs : List Result) :
    (s.afterInst inst d rs).results = s.results ++ rs := rfl
@[simp] theorem State.afterInst_draws (s : State) (inst : Nat) (d : Dfr) (rs : List Result) :
    (s.afterInst inst d rs).draws = s.draws := rfl

theorem State.afterInst_nil (s : State) (inst : Nat) (d : Dfr) : s.afterInst inst d [] = s.setDfr inst d :=
  (State.setDfr_reply_nil s inst d).symm

theorem State.afterInst_singleton (s : State) (inst : Nat) (d : Dfr) (r : Result) :
    s.afterInst inst d [r] = (s.setDfr inst d).reply r := rfl

/-- An operation on an instance that is accepted in one state does the same to its instance in every state with the same
configuration where the instance has the same record. -/
theorem exec_target_effect {i : Instr} {inst : Nat} {s t : State} (hi : target i = some inst) (h : exec i s = .next t) :
    ∃ d d' rs, s.dfr[inst]? = some d ∧ InstStep s.cfg d i d' rs ∧
      ∀ u : State, u.cfg = s.cfg → u.dfr[inst]? = some d → exec i u = .next (u.afterInst inst d' rs) := by
  by_cases hr : isRx i = true
  · obtain ⟨b, hb⟩ := exec_rx_eq_execRxb hi hr h
    obtain ⟨d, d', hd, ho, hs, rfl⟩ := execRxb_next (hb s rfl ▸ h)
    refine ⟨d, d', [], hd, .byte hr ho hs, fun u hc hu => ?_⟩
    rw [hb u (hu.trans hd.symm), execRxb_of_step hu ho (hc ▸ hs), State.afterInst_nil]
  · cases i <;> simp only [isRx, target, Option.some.injEq, reduceCtorEq, not_true] at hi hr <;> subst hi
    case eof =>
      obtain ⟨d, hd, ho, -⟩ := execEof_next h
      exact ⟨d, _, _, hd, .eof ho, fun u _ hu => by simp [exec, execEof, withInst_some hu, ho, State.afterInst_nil]⟩
    case pop =>
      obtain ⟨d, f, rest, hd, hq, -⟩ := execPop_next h
      exact ⟨d, _, _, hd, .pop hq, fun u _ hu => by simp [exec, execPop, withInst_some hu, hq, State.afterInst_singleton]⟩
    case stat =>
      obtain ⟨d, hd, -⟩ := execStat_next h
      exact ⟨d, _, _, hd, .stat, fun u _ hu => by
        simp [exec, execStat, withInst_some hu, State.afterInst_singleton, State.setDfr_self hu]⟩
    case rst =>
      obtain ⟨d, hd, -⟩ := execRst_next h
      exact ⟨d, _, _, hd, .rst, fun u _ hu => by simp [exec, execRst, withInst_some hu, State.afterInst_nil]⟩

/-- All that an accepted operation on an instance can do. -/
theorem exec_target_step {i : Instr} {inst : Nat} {s t : State} (hi : target i = some inst) (h : exec i s = .next t) :
    ∃ d d' rs, s.dfr[inst]? = some d ∧ InstStep s.cfg d i d' rs ∧ t = s.afterInst inst d' rs := by
  obtain ⟨d, d', rs, hd, hs, hu⟩ := exec_target_effect hi h
  exact ⟨d, d', rs, hd, hs, by simpa [h] using hu s rfl hd⟩

/-- An operation of a stateless unit that is accepted in one state is accepted in every state with the same configuration; it
returns the same result there, unless it is a UIB, whose filler is drawn afresh. The result is no frame. -/
theorem exec_stateless_effect {i : Instr} {s t u : State} (hi : target i = none) (hc : u.cfg = s.cfg)
    (h : exec i s = .next t) : ∃ r r' k, t = (s.takeDraws k).reply r ∧ exec i u = .next ((u.takeDraws k).reply r') ∧
      (∀ f, r ≠ .frame f) ∧
      ((∀ sn ss dn ds payload padlen, i ≠ .uib sn ss dn ds payload padlen) → k = 0 ∧ r' = r) := by
  cases i <;> simp only [target, reduceCtorEq] at hi
  case uib sn ss dn ds payload padlen =>
    simp only [exec, execUib, hc] at h ⊢
    split at h
    · cases h
    · split at h
      · cases h
      · cases h; exact ⟨_, _, _, rfl, rfl, nofun, fun hn => absurd rfl (hn _ _ _ _ _ _)⟩
  case typb =>
    simp only [exec, execTypb] at h ⊢
    split at h
    · cases h
    · cases h; exact ⟨_, _, 0, rfl, if_neg ‹_›, nofun, fun _ => ⟨rfl, rfl⟩⟩
  case split f =>
    cases f with
    | nil => cases h
    | cons b body => cases h; exact ⟨_, _, 0, rfl, rfl, nofun, fun _ => ⟨rfl, rfl⟩⟩
  case aenc =>
    simp only [exec, execAenc, hc] at h ⊢
    split at h
    · cases h
    · cases h; exact ⟨_, _, 0, rfl, rfl, nofun, fun _ => ⟨rfl, rfl⟩⟩
  case adec =>
    simp only [exec, execAdec] at h
    split at h
    · cases h; exact ⟨_, _, 0, rfl, rfl, nofun, fun _ => ⟨rfl, rfl⟩⟩
    · cases h
  case uUnknown =>
    simp only [exec, execUUnknown] at h ⊢
    split at h
    · cases h; exact ⟨_, _, 0, rfl, if_pos ‹_›, nofun, fun _ => ⟨rfl, rfl⟩⟩
    · cases h
  case pidUnknown =>
    simp only [exec, execPidUnknown] at h ⊢
    split at h
    · cases h; exact ⟨_, _, 0, rfl, if_pos ‹_›, nofun, fun _ => ⟨rfl, rfl⟩⟩
    · cases h
  all_goals cases h; exact ⟨_, _, 0, rfl, rfl, nofun, fun _ => ⟨rfl, rfl⟩⟩

/-- No instruction writes the configuration or adds or removes an instance. -/
theorem exec_keeps_cfg_length {i : Instr} {s t : State} (h : exec i s = .next t) :
    t.cfg = s.cfg ∧ t.dfr.length = s.dfr.length := by
  cases hi : target i with
  | some inst => obtain ⟨d, d', rs, -, -, rfl⟩ := exec_target_step hi h; simp
  | none => obtain ⟨r, k, rfl, -⟩ := exec_stateless_next hi h; simp

/-! ### What a step does -/

/-- A service that goes on leaves the state as it is, or performs one of the requests, the others still pending. -/
theorem serve_cases {s t : State} {passed rs : List Request} (h : serve s passed rs = .next t) :
    t = s ∨ ∃ before r after i, rs = before ++ r :: after ∧ decode r.message = .ok i ∧
      exec i (s.setPending (passed ++ before ++ after)) = .next t := by
  induction rs generalizing passed with
  | nil => cases h; exact .inl rfl
  | cons r rest ih =>
    have later (h : serve s (passed ++ [r]) rest = .next t) : t = s ∨ ∃ before r' after i,
        r :: rest = before ++ r' :: after ∧ decode r'.message = .ok i ∧
          exec i (s.setPending (passed ++ before ++ after)) = .next t := by
      obtain hs | ⟨before, r', after, i, rfl, hi, ht⟩ := ih h
      · exact .inl hs
      · exact .inr ⟨r :: before, r', after, i, rfl, hi, by simpa using ht⟩
    by_cases hb : passed.any (fun p => mustPrecede p r) = true
    · exact later (serve_behind hb ▸ h)
    · rw [Bool.not_eq_true] at hb
      cases ha : attempt r.message (s.setPending (passed ++ rest)) with
      | next u =>
        cases (serve_next hb ha).symm.trans h
        obtain ⟨i, hi, hu⟩ := attempt_next ha
        exact .inr ⟨[], r, rest, i, rfl, hi, by simpa using hu⟩
      | refused e => cases (serve_refused hb ha).symm.trans h
      | fault f => exact later (serve_fault hb ha ▸ h)

/-- A step leaves the state as it is, or performs one of the pending requests, the others still pending. -/
theorem step_cases {s t : State} (h : step s = .next t) :
    t = s ∨ ∃ before r after i, s.pending = before ++ r :: after ∧ decode r.message = .ok i ∧
      exec i (s.setPending (before ++ after)) = .next t :=
  serve_cases h

/-! ### The invariant (R27) -/

theorem within_zero (bound : Option Nat) : within bound 0 := fun _ _ => Nat.zero_le _

/-- What has not reached a bound has room for one more. -/
theorem within_succ_of_full_eq_false {bound : Option Nat} {n : Nat} (h : full bound n = false) : within bound (n + 1) :=
  full_eq_false_iff.mp h

/-- The reset record has the invariant under every configuration. -/
theorem Dfr.reset_inv (cfg : Config) : Dfr.reset.Inv cfg :=
  ⟨nofun, fun _ => ⟨rfl, rfl⟩, within_zero _, within_zero _⟩

/-- An accepted byte keeps the invariant of its instance. -/
theorem RxStep.inv {cfg : Config} {d d' : Dfr} {b : Byte} (h : RxStep cfg d b d') (ho : d.closed = false) (hd : d.Inv cfg) :
    d'.Inv cfg := by
  obtain ⟨hq, -, hbuf, hlen⟩ := hd
  have opened {P : Prop} (hc : d.closed = true) : P := by simp [ho] at hc
  cases h with
  | escape => exact ⟨hq, opened, hbuf, hlen⟩
  | idle => exact ⟨hq, opened, hbuf, hlen⟩
  | push _ _ hne hf =>
    refine ⟨fun f hm => ?_, opened, within_zero _, by simpa using within_succ_of_full_eq_false hf⟩
    obtain hm | rfl := by simpa using hm
    · exact hq f hm
    · exact hne
  | data _ _ _ hf => exact ⟨hq, opened, by simpa using within_succ_of_full_eq_false hf, hlen⟩
  | transEscape _ _ hf => exact ⟨hq, opened, by simpa using within_succ_of_full_eq_false hf, hlen⟩
  | transDelimiter _ _ hf => exact ⟨hq, opened, by simpa using within_succ_of_full_eq_false hf, hlen⟩
  | violation => exact ⟨hq, opened, within_zero _, hlen⟩

/-- An accepted operation keeps the invariant of its instance. -/
theorem InstStep.inv {cfg : Config} {d d' : Dfr} {i : Instr} {rs : List Result} (h : InstStep cfg d i d' rs)
    (hd : d.Inv cfg) : d'.Inv cfg := by
  cases h with
  | byte _ ho hs => exact hs.inv ho hd
  | eof => obtain ⟨hq, -, -, hlen⟩ := hd; exact ⟨hq, fun _ => ⟨rfl, rfl⟩, within_zero _, hlen⟩
  | pop heq =>
    obtain ⟨hq, hc, hbuf, hlen⟩ := hd
    rw [heq] at hq hlen
    exact ⟨fun f hf => hq f (.tail _ hf), hc, hbuf, fun m hm => (Nat.le_succ _).trans (hlen m hm)⟩
  | stat => exact hd
  | rst => exact Dfr.reset_inv cfg

/-- A frame that an operation returns was in its instance's queue. -/
theorem InstStep.mem_queue_of_frame {cfg : Config} {d d' : Dfr} {i : Instr} {rs : List Result} {f : Bytes}
    (h : InstStep cfg d i d' rs) (hf : Result.frame f ∈ rs) : f ∈ d.q := by
  cases h with
  | pop heq =>
    obtain rfl : f = _ := by simpa using hf
    exact heq ▸ .head _
  | _ => simp at hf

/-- Every instruction keeps the invariant. -/
theorem exec_keeps_inv {i : Instr} {s t : State} (hs : s.Inv) (h : exec i s = .next t) : t.Inv := by
  obtain ⟨hcfg, hne, hinst, hres⟩ := hs
  cases hi : target i with
  | some inst =>
    obtain ⟨d, d', rs, hd, hstep, rfl⟩ := exec_target_step hi h
    have hdi : d.Inv s.cfg := hinst d (List.mem_of_getElem? hd)
    have hq : ∀ f ∈ d.q, f ≠ [] := hdi.1
    refine ⟨hcfg, by simpa using hne, fun e he => ?_, fun f hf => ?_⟩
    · obtain he | rfl := List.mem_or_eq_of_mem_set he
      · exact hinst e he
      · exact hstep.inv hdi
    · obtain hf | hf := List.mem_append.mp hf
      · exact hres f hf
      · exact hq f (hstep.mem_queue_of_frame hf)
  | none =>
    obtain ⟨r, -, k, rfl, -, hr, -⟩ := exec_stateless_effect hi rfl h
    refine ⟨hcfg, hne, hinst, fun f hf => ?_⟩
    obtain hf | hf := by simpa using hf
    · exact hres f hf
    · exact absurd hf.symm (hr f)

/-- Settles O3: a step leaves the state or performs one request, and every instruction keeps the invariant, which does not
speak of the requests that wait. -/
theorem everyStepKeepsInvariant : Obligations.EveryStepKeepsInvariant := by
  intro s t hs h
  obtain rfl | ⟨before, _, after, i, -, -, ht⟩ := step_cases h
  · exact hs
  · exact exec_keeps_inv (s := s.setPending (before ++ after)) hs ht

/-- Power-on of at least one instance under an admitted configuration has the invariant. -/
theorem State.powerOn_inv {n : Nat} {cfg : Config} (hn : 1 ≤ n) (hc : cfg.Admitted) : (State.powerOn n cfg).Inv :=
  ⟨hc, by simp [State.powerOn]; omega, fun _ hd => List.eq_of_mem_replicate hd ▸ Dfr.reset_inv cfg, nofun⟩

/-- Settles O2: reset is power-on of one instance under the default configuration. -/
theorem invariantHoldsAtReset : Obligations.InvariantHoldsAtReset :=
  ⟨State.powerOn_inv le_rfl (by decide), fun _ _ => State.powerOn_inv⟩

/-! ### The configuration and the step -/

/-- Settles O4, from what a step does and what an instruction leaves unchanged. -/
theorem configurationNeverChanges : Obligations.ConfigurationNeverChanges := by
  intro s t h
  obtain rfl | ⟨before, _, after, i, -, -, ht⟩ := step_cases h
  · exact ⟨rfl, rfl⟩
  · exact exec_keeps_cfg_length (s := s.setPending (before ++ after)) ht

/-- Settles O5: nothing is gone by before the oldest request, so its attempt decides. -/
theorem stepRunsDecodedRequest : Obligations.StepRunsDecodedRequest := by
  refine ⟨fun s r rest i hp hi => ?_, fun s hp => by rw [step, hp, serve_nil]⟩
  have hstep : step s = serve s [] (r :: rest) := by rw [step, hp]
  have hattempt : attempt r.message (s.setPending ([] ++ rest)) = exec i { s with pending := rest } := attempt_ok hi _
  refine ⟨fun t ht => ⟨?_, exec_keeps_pending ht⟩, fun e he => ?_, fun f hf => ?_⟩
  · rw [hstep, serve_next rfl (hattempt.trans ht)]
  · rw [hstep, serve_refused rfl (hattempt.trans he)]
  · rw [hstep, serve_fault rfl (hattempt.trans hf), List.nil_append]

/-! ### Frames of the operations -/

/-- A byte leads to Escaped exactly when it is an ESCAPE in Normal. -/
theorem RxStep.escaped_iff {cfg : Config} {d d' : Dfr} {b : Byte} (h : RxStep cfg d b d') :
    d'.esc = .escaped ↔ d.esc = .normal ∧ b = 0xDB := by
  cases h <;> simp_all

/-- A byte neither opens nor closes its instance. -/
theorem RxStep.closed_eq {cfg : Config} {d d' : Dfr} {b : Byte} (h : RxStep cfg d b d') : d'.closed = d.closed := by
  cases h <;> rfl

/-- A byte only adds to the end of the queue. -/
theorem RxStep.queue_append {cfg : Config} {d d' : Dfr} {b : Byte} (h : RxStep cfg d b d') : ∃ fs, d'.q = d.q ++ fs := by
  cases h with
  | push => exact ⟨_, rfl⟩
  | _ => exact ⟨[], by simp⟩

/-- Settles O26, from what an accepted byte makes of its instance. -/
theorem escapedExactlyAfterEscape : Obligations.EscapedExactlyAfterEscape := by
  intro s t i d b hd h
  obtain ⟨e, d', he, -, hs, rfl⟩ := execRxb_next h
  obtain rfl : e = d := Option.some.inj (he.symm.trans hd)
  exact ⟨d', State.getElem?_setDfr hd d', hs.escaped_iff⟩

/-- Settles O55: the state after the operation has one record rewritten, and `InstStep` says how, operation by operation. -/
theorem deframerFrame : Obligations.DeframerFrame := by
  intro s t i inst hi h
  obtain ⟨d, d', rs, hd, hstep, rfl⟩ := exec_target_step hi h
  refine ⟨rfl, rfl, rfl, List.length_set, fun j hj => State.getElem?_setDfr_ne hj d', d, d', hd,
    State.getElem?_setDfr hd d', ?_⟩
  cases hstep with
  | byte hr _ hs =>
    have bytes : d'.closed = d.closed ∧ (s.afterInst inst d' []).results = s.results ∧ ∃ fs, d'.q = d.q ++ fs :=
      ⟨hs.closed_eq, List.append_nil _, hs.queue_append⟩
    cases i <;> simp only [isRx, Bool.false_eq_true] at hr
    all_goals exact bytes
  | eof => exact ⟨rfl, List.append_nil _⟩
  | pop => exact ⟨rfl, rfl, rfl, _, rfl⟩
  | stat => exact ⟨rfl, _, rfl⟩
  | rst => exact List.append_nil _

/-- Settles O56, from all that an accepted operation of a stateless unit can do. -/
theorem statelessFrame : Obligations.StatelessFrame := by
  intro s t i hi h
  obtain ⟨r, k, rfl, hk⟩ := exec_stateless_next hi h
  exact ⟨⟨r, rfl⟩, fun hn => by simp [hk hn]⟩

/-- Settles O57: outside UIB nothing is drawn, and the result is the same wherever the configuration is. -/
theorem statelessResultsDoNotDependOnState : Obligations.StatelessResultsDoNotDependOnState := by
  intro s u t i hi hn hc h
  obtain ⟨r, r', k, rfl, hu, -, hk⟩ := exec_stateless_effect hi hc.symm h
  obtain ⟨rfl, rfl⟩ := hk hn
  exact ⟨r', rfl, hu⟩

/-! ### Independence -/

/-- The records after `i` has left its instance the record `d`; a stateless unit's operation leaves all as they are. -/
def writeTarget (i : Instr) (d : Dfr) (ds : List Dfr) : List Dfr :=
  match target i with
  | some inst => ds.set inst d
  | none => ds

theorem writeTarget_some {i : Instr} {inst : Nat} (hi : target i = some inst) (d : Dfr) (ds : List Dfr) :
    writeTarget i d ds = ds.set inst d := by
  simp [writeTarget, hi]

theorem writeTarget_none {i : Instr} (hi : target i = none) (d : Dfr) (ds : List Dfr) : writeTarget i d ds = ds := by
  simp [writeTarget, hi]

/-- The record of an instance that `i` does not name stays. -/
theorem getElem?_writeTarget_ne {i : Instr} {inst : Nat} (h : target i ≠ some inst) (d : Dfr) (ds : List Dfr) :
    (writeTarget i d ds)[inst]? = ds[inst]? := by
  cases hi : target i with
  | none => rw [writeTarget_none hi]
  | some n => rw [writeTarget_some hi, List.getElem?_set_ne fun hn => h (hi.trans (congrArg some hn))]

/-- Writes of operations that do not name the same instance commute. -/
theorem writeTarget_comm {i j : Instr} (h : ∀ inst, target i = some inst → target j ≠ some inst) (d e : Dfr)
    (ds : List Dfr) : writeTarget j e (writeTarget i d ds) = writeTarget i d (writeTarget j e ds) := by
  cases hi : target i with
  | none => simp only [writeTarget_none hi]
  | some m =>
    cases hj : target j with
    | none => simp only [writeTarget_none hj]
    | some n =>
      simp only [writeTarget_some hi, writeTarget_some hj]
      exact List.set_comm _ _ fun hmn => h m hi (hj.trans (congrArg some hmn.symm))

/-- An instruction that is accepted in one state is accepted, and leaves its instance the same record, in every state with the
same configuration where the instance it names, if any, has the same record. For a stateless unit's
operation any record stands for `d`, since none is written. -/
theorem exec_next_writeTarget {i : Instr} {s t : State} (h : exec i s = .next t) :
    ∃ d, t.dfr = writeTarget i d s.dfr ∧ ∀ u : State, u.cfg = s.cfg →
      (∀ inst, target i = some inst → u.dfr[inst]? = s.dfr[inst]?) →
      ∃ v, exec i u = .next v ∧ v.dfr = writeTarget i d u.dfr := by
  cases hi : target i with
  | some inst =>
    obtain ⟨d, d', rs, hd, -, hu⟩ := exec_target_effect hi h
    cases h.symm.trans (hu s rfl hd)
    refine ⟨d', (writeTarget_some hi ..).symm, fun u hc hrec => ⟨_, hu u hc ?_, (writeTarget_some hi ..).symm⟩⟩
    exact (hrec inst rfl).trans hd
  | none =>
    refine ⟨Dfr.reset, ?_, fun u hc _ => ?_⟩
    · obtain ⟨r, k, rfl, -⟩ := exec_stateless_next hi h
      exact (writeTarget_none hi ..).symm
    · obtain ⟨r, r', k, -, hu, -⟩ := exec_stateless_effect hi hc h
      exact ⟨_, hu, (writeTarget_none hi ..).symm⟩

/-- Settles O58: neither operation reads what the other writes, and their writes commute. -/
theorem otherInstancesCommute : Obligations.OtherInstancesCommute := by
  intro s t u i j hij hi hj
  obtain ⟨d, htd, hi_any⟩ := exec_next_writeTarget hi
  obtain ⟨e, hue, hj_any⟩ := exec_next_writeTarget hj
  have htc : t.cfg = s.cfg := (exec_keeps_cfg_length hi).1
  have huc : u.cfg = s.cfg := (exec_keeps_cfg_length hj).1
  obtain ⟨v, hv, hvd⟩ := hj_any t htc fun inst hn =>
    htd ▸ getElem?_writeTarget_ne (fun hm => hij inst hm hn) d s.dfr
  obtain ⟨w, hw, hwd⟩ := hi_any u huc fun inst hn => hue ▸ getElem?_writeTarget_ne (hij inst hn) e s.dfr
  refine ⟨v, w, hv, hw, ?_, ?_⟩
  · rw [hvd, hwd, htd, hue, writeTarget_comm hij]
  · rw [(exec_keeps_cfg_length hv).1, (exec_keeps_cfg_length hw).1, htc, huc]

end Sys2Proof.Machine

/-! ### When a byte waits (20_memory.md R46, R47; 42_kiss_framer.md R98) -/

namespace Sys2Proof.Machine

/-- Whether a byte received in an escape state would be appended to the buffer (R94 to R96). -/
def Appends (esc : Esc) (b : Byte) : Prop :=
  (esc = .normal ∧ b ≠ 0xC0 ∧ b ≠ 0xDB) ∨ (esc = .escaped ∧ (b = 0xDC ∨ b = 0xDD))

/-- Why a received byte is not accepted by an instance with record `d`: `RxStep` is what it does where it is. -/
inductive RxFault (cfg : Config) (d : Dfr) (b : Byte) : Fault → Prop where
  | closed : d.closed = true → RxFault cfg d b .stuckClosed
  | queueFull : d.closed = false → d.esc = .normal → b = 0xC0 → d.buf ≠ [] →
      full cfg.queueDepth d.q.length = true → RxFault cfg d b .holdQueueFull
  | bufferFull : d.closed = false → Appends d.esc b → full cfg.maxFrameBytes d.buf.length = true →
      RxFault cfg d b .stuckBufferFull

/-- A byte that would be appended is accepted where the buffer has room, and waits where it has none. -/
theorem rxStep_or_rxFault_of_appends {cfg : Config} {d : Dfr} {b : Byte} (ho : d.closed = false) (h : Appends d.esc b) :
    (∃ d', RxStep cfg d b d') ∨ ∃ f, RxFault cfg d b f := by
  cases hf : full cfg.maxFrameBytes d.buf.length with
  | true => exact .inr ⟨_, .bufferFull ho h hf⟩
  | false =>
    obtain ⟨he, hC0, hDB⟩ | ⟨he, hDC | hDD⟩ := h
    · exact .inl ⟨_, .data he hDB hC0 hf⟩
    · exact .inl ⟨_, .transDelimiter he hDC hf⟩
    · exact .inl ⟨_, .transEscape he hDD hf⟩

/-- Every byte is accepted by an open instance or waits for a reason of `RxFault`. -/
theorem rxStep_or_rxFault {d : Dfr} (ho : d.closed = false) (cfg : Config) (b : Byte) :
    (∃ d', RxStep cfg d b d') ∨ ∃ f, RxFault cfg d b f := by
  cases he : d.esc with
  | normal =>
    by_cases hDB : b = 0xDB
    · exact .inl ⟨_, .escape he hDB⟩
    by_cases hC0 : b = 0xC0
    · by_cases hbuf : d.buf = []
      · exact .inl ⟨_, .idle he hC0 hbuf⟩
      cases hq : full cfg.queueDepth d.q.length with
      | false => exact .inl ⟨_, .push he hC0 hbuf hq⟩
      | true => exact .inr ⟨_, .queueFull ho he hC0 hbuf hq⟩
    · exact rxStep_or_rxFault_of_appends ho (.inl ⟨he, hC0, hDB⟩)
  | escaped =>
    by_cases hb : b = 0xDC ∨ b = 0xDD
    · exact rxStep_or_rxFault_of_appends ho (.inr ⟨he, hb⟩)
    · obtain ⟨hDC, hDD⟩ := not_or.mp hb
      exact .inl ⟨_, .violation he hDD hDC⟩

/-- RXB waits for each reason of `RxFault`. -/
theorem execRxb_of_rxFault {inst : Nat} {b : Byte} {s : State} {d : Dfr} {f : Fault} (hd : s.dfr[inst]? = some d)
    (h : RxFault s.cfg d b f) : execRxb inst b s = .fault f := by
  cases h with
  | closed hc => simp [execRxb, withInst_some hd, hc]
  | queueFull ho he hb hbuf hq => simp [execRxb_open hd ho, he, hb, rxClass, rxArm, endFrame, hbuf, hq]
  | bufferFull ho ha hf =>
    rw [execRxb_open hd ho]
    obtain ⟨he, hC0, hDB⟩ | ⟨he, rfl | rfl⟩ := ha
    · rw [he, rxClass_data hDB hC0]; exact appendByte_full hf
    · rw [he, rxClass_escaped_transDelimiter]; exact appendByte_full hf
    · rw [he, rxClass_escaped_transEscape]; exact appendByte_full hf

/-- All the reasons for which RXB on an existing instance waits. -/
theorem execRxb_fault_iff {inst : Nat} {b : Byte} {s : State} {d : Dfr} {f : Fault} (hd : s.dfr[inst]? = some d) :
    execRxb inst b s = .fault f ↔ RxFault s.cfg d b f := by
  refine ⟨fun h => ?_, execRxb_of_rxFault hd⟩
  have same {g : Fault} (hg : RxFault s.cfg d b g) : RxFault s.cfg d b f := by
    cases (execRxb_of_rxFault hd hg).symm.trans h
    exact hg
  obtain hc | ho := Bool.eq_false_or_eq_true d.closed
  · exact same (.closed hc)
  · obtain ⟨d', hs⟩ | ⟨g, hg⟩ := rxStep_or_rxFault ho s.cfg b
    · cases (execRxb_of_step hd ho hs).symm.trans h
    · exact same hg

theorem rxFault_stuckBufferFull_iff {cfg : Config} {d : Dfr} {b : Byte} :
    RxFault cfg d b .stuckBufferFull ↔
      d.closed = false ∧ full cfg.maxFrameBytes d.buf.length = true ∧ Appends d.esc b :=
  ⟨fun | .bufferFull ho ha hf => ⟨ho, hf, ha⟩, fun ⟨ho, hf, ha⟩ => .bufferFull ho ha hf⟩

theorem rxFault_holdQueueFull_iff {cfg : Config} {d : Dfr} {b : Byte} :
    RxFault cfg d b .holdQueueFull ↔
      d.closed = false ∧ d.esc = .normal ∧ b = 0xC0 ∧ d.buf ≠ [] ∧ full cfg.queueDepth d.q.length = true :=
  ⟨fun | .queueFull ho he hb hbuf hq => ⟨ho, he, hb, hbuf, hq⟩,
    fun ⟨ho, he, hb, hbuf, hq⟩ => .queueFull ho he hb hbuf hq⟩

/-- POP returns the oldest frame of a queue that holds one. -/
theorem execPop_cons {inst : Nat} {s : State} {d : Dfr} {f : Bytes} {rest : List Bytes} (hd : s.dfr[inst]? = some d)
    (hq : d.q = f :: rest) : execPop inst s = .next ((s.setDfr inst { d with q := rest }).reply (.frame f)) := by
  simp [execPop, withInst_some hd, hq]

/-- Settles O27: `BufferFull` is the one reason of `RxFault` that speaks of the buffer bound, and STAT, RST and POP do not
ask for it. -/
theorem fullBufferIsStuck : Obligations.FullBufferIsStuck := by
  intro s i d hd
  refine ⟨fun b => ?_, ⟨_, withInst_some hd _⟩, ⟨_, withInst_some hd _⟩, fun hq => ?_⟩
  · rw [← full_eq_true_iff]
    exact (execRxb_fault_iff hd).trans rxFault_stuckBufferFull_iff
  · obtain ⟨f, rest, hq⟩ := List.exists_cons_of_ne_nil hq
    exact ⟨_, execPop_cons hd hq⟩

/-- Settles O28: `QueueFull` is the one reason of `RxFault` that speaks of the queue bound, and the POP leaves the queue one
frame below it. -/
theorem fullQueueHolds : Obligations.FullQueueHolds := by
  intro s i d hd
  refine ⟨fun b => ?_, fun m t ho he hbuf hm hlen h => ?_⟩
  · rw [← full_eq_true_iff]
    exact (execRxb_fault_iff hd).trans rxFault_holdQueueFull_iff
  · obtain ⟨e, f, rest, he', hq, rfl⟩ := execPop_next h
    obtain rfl : e = d := Option.some.inj (he'.symm.trans hd)
    have room : full s.cfg.queueDepth rest.length = false := by
      rw [full_eq_false_iff, hm]
      rintro _ ⟨rfl⟩
      rw [← hlen, hq]
      exact Nat.lt_succ_self _
    rw [hq]
    exact execRxb_of_step (State.getElem?_setDfr hd _) ho (.push he rfl hbuf room)

/-! ### The order of frames (R49) -/

/-- Settles O59: a byte pushes at the end, a POP takes from the front and returns what it takes, EOF and STAT leave the queue. -/
theorem framesLeaveInOrder : Obligations.FramesLeaveInOrder := by
  intro s t i inst d hi hrst hd h
  obtain ⟨e, d', rs, he, hstep, rfl⟩ := exec_target_step hi h
  obtain rfl : e = d := Option.some.inj (he.symm.trans hd)
  have hd' : (s.afterInst inst d' rs).dfr[inst]? = some d' := State.getElem?_setDfr hd d'
  cases hstep with
  | byte _ _ hs =>
    obtain ⟨pushed, hq⟩ := hs.queue_append
    exact ⟨d', pushed, [], hd', hq.symm, by simp⟩
  | eof => exact ⟨_, [], [], hd', List.append_nil _, by simp⟩
  | @pop _ f _ hq => exact ⟨_, [], [f], hd', by simp [hq], by simp⟩
  | stat => exact ⟨_, [], [], hd', List.append_nil _, by simp⟩
  | rst =>
    obtain rfl : _ = inst := Option.some.inj hi
    exact absurd rfl hrst

/-! ### Which request a step serves (R46, R48, R51) -/

/-- A request that a service goes by, `earlier` being those before it: it waits, or one of them must precede it. -/
def PassedBy (s : State) (earlier : List Request) (p : Request) : Prop :=
  (∃ f, waitOf s p = some f) ∨ ∃ p' ∈ earlier, mustPrecede p' p = true

/-- A service that goes on goes by the first request, or performs it and none must precede it. -/
theorem serve_cons_next {s t : State} {passed rest : List Request} {r : Request}
    (h : serve s passed (r :: rest) = .next t) :
    (PassedBy s passed r ∧ serve s (passed ++ [r]) rest = .next t) ∨
      ((∀ p ∈ passed, mustPrecede p r = false) ∧
        ∃ i, decode r.message = .ok i ∧ exec i (s.setPending (passed ++ rest)) = .next t) := by
  by_cases hb : passed.any (fun p => mustPrecede p r) = true
  · exact .inl ⟨.inr (List.any_eq_true.mp hb), serve_behind hb ▸ h⟩
  · rw [Bool.not_eq_true] at hb
    cases ha : attempt r.message (s.setPending (passed ++ rest)) with
    | next u =>
      cases (serve_next hb ha).symm.trans h
      exact .inr ⟨by simpa using hb, attempt_next ha⟩
    | refused e => cases (serve_refused hb ha).symm.trans h
    | fault f => exact .inl ⟨.inl ⟨f, waitOf_eq_some.mpr (attempt_fault_setPending ha)⟩, serve_fault hb ha ▸ h⟩

/-- If the first request is gone by and all the later ones that none must precede wait, all those that none must precede wait. -/
theorem heads_cons_wait {s : State} {passed rest : List Request} {r : Request} (hr : PassedBy s passed r)
    (h : ∀ q ∈ heads (passed ++ [r]) rest, ∃ f, waitOf s q = some f) :
    ∀ q ∈ heads passed (r :: rest), ∃ f, waitOf s q = some f := by
  by_cases hb : passed.any (fun p => mustPrecede p r) = true
  · simpa only [heads, if_pos hb] using h
  · simp only [heads, if_neg hb, List.forall_mem_cons]
    exact ⟨hr.resolve_right fun hp => hb (List.any_eq_true.mpr hp), h⟩

/-- If the first request is gone by, and so is every one of `before` after it, every one of the whole is. -/
theorem passedBy_cons {s : State} {passed before : List Request} {r : Request} (hr : PassedBy s passed r)
    (h : ∀ b p c, before = b ++ p :: c → PassedBy s (passed ++ [r] ++ b) p) :
    ∀ b p c, r :: before = b ++ p :: c → PassedBy s (passed ++ b) p := by
  intro b p c hb
  cases b with
  | nil =>
    obtain ⟨rfl, -⟩ := List.cons.inj hb
    rwa [List.append_nil]
  | cons q b =>
    obtain ⟨rfl, htail⟩ := List.cons.inj hb
    simpa using h b p c htail

/-- All that a service that goes on can do: nothing, all that none must precede waiting; or perform a request that none must
precede, all before it gone by. -/
theorem serve_next_cases {s t : State} {passed rs : List Request} (h : serve s passed rs = .next t) :
    (t = s ∧ ∀ r ∈ heads passed rs, ∃ f, waitOf s r = some f) ∨
    ∃ before r after i, rs = before ++ r :: after ∧ (∀ p ∈ passed ++ before, mustPrecede p r = false) ∧
      decode r.message = .ok i ∧ exec i (s.setPending (passed ++ before ++ after)) = .next t ∧
      ∀ b p c, before = b ++ p :: c → PassedBy s (passed ++ b) p := by
  induction rs generalizing passed with
  | nil => cases h; exact .inl ⟨rfl, nofun⟩
  | cons r rest ih =>
    obtain ⟨hr, h⟩ | ⟨hnone, i, hi, ht⟩ := serve_cons_next h
    · obtain ⟨hs, hw⟩ | ⟨before, r', after, i, rfl, hnone, hi, ht, hby⟩ := ih h
      · exact .inl ⟨hs, heads_cons_wait hr hw⟩
      · exact .inr ⟨r :: before, r', after, i, rfl, by simpa using hnone, hi, by simpa using ht, passedBy_cons hr hby⟩
    · exact .inr ⟨[], r, rest, i, rfl, by simpa using hnone, hi, by simpa using ht, by simp⟩

/-- A request that waits was read as an instruction that is held or stuck. -/
theorem waitOf_eq_some_iff_exec {s : State} {r : Request} {f : Fault} :
    waitOf s r = some f ↔ ∃ i, decode r.message = .ok i ∧ exec i s = .fault f := by
  rw [waitOf_eq_some]
  cases hd : decode r.message with
  | ok i => simp [attempt_ok hd]
  | error e => simp [attempt_error hd]

/-- Settles O7: a step is a service with none gone by. -/
theorem stepServesOldestOfAnAgent : Obligations.StepServesOldestOfAnAgent := by
  intro s t h
  obtain hnothing | ⟨before, r, after, i, hp, hnone, hi, ht, hby⟩ := serve_next_cases h
  · exact .inl hnothing
  · refine .inr ⟨before, r, after, i, hp, fun p hm => mustPrecede_eq_false.mp (hnone p hm), hi, ht,
      exec_keeps_pending ht, fun b p c hb => ?_⟩
    obtain ⟨f, hw⟩ | hbehind := hby b p c hb
    · obtain ⟨j, hj, hf⟩ := waitOf_eq_some_iff_exec.mp hw
      exact .inl ⟨j, f, hj, hf⟩
    · exact .inr hbehind

/-- Settles O8: the first request is gone by, so the step is the service of the second with the first before it. -/
theorem waitingRequestStaysPending : Obligations.WaitingRequestStaysPending := by
  intro s a b i j f hp hi hf hj
  have hstep : step s = serve s [a] [b] := by
    refine (stepRunsDecodedRequest.1 s a [b] i hp hi).2.2 f ?_
    exact (exec_setPending i s [b]).trans (by rw [hf]; rfl)
  have behind (h : mustPrecede a b = true) : step s = .next s := by
    rw [hstep, serve_behind (by simpa using h), serve_nil]
  refine ⟨fun h => behind (mustPrecede_of_agent h),
    fun inst ha hb => behind (mustPrecede_of_input ((inputOf_ok hi).trans ha) ((inputOf_ok hj).trans hb)),
    fun hagent hinput t ht => ⟨?_, exec_keeps_pending ht⟩⟩
  have apart : mustPrecede a b = false := by
    rw [mustPrecede_eq_false, inputOf_ok hi, inputOf_ok hj]
    exact ⟨hagent, hinput⟩
  rw [hstep]
  exact serve_next (by simpa using apart) ((attempt_ok hj _).trans ht)

end Sys2Proof.Machine

/-! ### Reading and writing messages (30_encoding.md R57, R63 to R65, R70, R71)

For each of the four formats: what the encoder writes is read back, and what is read is what the encoder writes. -/

namespace Sys2Proof

/-- A number is read exactly where it was written. -/
theorem readNat_eq_some_iff {xs rest : Bytes} {n : Nat} : readNat xs = some (n, rest) ↔ xs = natBytes n ++ rest :=
  ⟨natBytes_of_readNat, fun h => h ▸ readNat_natBytes n rest⟩

/-! ### The operations (R70, R71) -/

theorem readInst_eq_some_iff {mk : Nat → Instr} {xs : Bytes} {i : Instr} :
    readInst mk xs = some i ↔ ∃ inst, xs = natBytes inst ∧ mk inst = i := by
  simp [readInst, Option.bind_eq_some_iff, readNat_eq_some_iff, atEnd_eq_some]

theorem readOneByte_eq_some_iff {mk : Byte → Instr} {xs : Bytes} {i : Instr} :
    readOneByte mk xs = some i ↔ ∃ b, xs = [b] ∧ mk b = i := by
  simp [readOneByte, Option.bind_eq_some_iff, readByte_eq_some, atEnd_eq_some]

theorem malformedIfNone_eq_ok_iff {o : Option Instr} {i : Instr} : malformedIfNone o = .ok i ↔ o = some i := by
  cases o <;> simp [malformedIfNone]

/-- The op code of R71: what `opOf` looks up, the other way round. -/
def opByte : Op → Byte
  | .rxb => 0x01
  | .eof => 0x02
  | .pop => 0x03
  | .stat => 0x04
  | .rst => 0x05
  | .enc => 0x10
  | .esc => 0x11
  | .typb => 0x12
  | .split => 0x13
  | .aenc => 0x20
  | .adec => 0x21
  | .hdec => 0x30
  | .cdec => 0x31
  | .pdec => 0x32
  | .uib => 0x40
  | .cks => 0x50

theorem eq_opByte_of_opOf {b : Byte} {op : Op} (h : opOf b = some op) : b = opByte op :=
  (by decide : ∀ b : Byte, ∀ op ∈ opOf b, b = opByte op) b op h

/-- Operands that are read are the operands the encoder writes. -/
theorem encode_of_readOperands {op : Op} {xs : Bytes} {i : Instr} (h : readOperands op xs = some i) :
    encode i = opMsg (opByte op) xs := by
  cases op
  case eof | pop | stat | rst =>
    obtain ⟨inst, rfl, rfl⟩ := readInst_eq_some_iff.mp h
    rfl
  case cdec | pdec =>
    obtain ⟨b, rfl, rfl⟩ := readOneByte_eq_some_iff.mp h
    rfl
  case esc | split | adec | hdec | cks =>
    cases h
    rfl
  all_goals simp only [readOperands, Option.bind_eq_bind, Option.bind_eq_some_iff, Prod.exists, readNat_eq_some_iff,
    readByte_eq_some, atEnd_eq_some, Option.some.injEq] at h
  case rxb =>
    obtain ⟨inst, _, rfl, b, _, rfl, rfl, rfl⟩ := h
    rfl
  case enc =>
    obtain ⟨t, body, rfl, rfl⟩ := h
    rfl
  case typb =>
    obtain ⟨port, _, rfl, command, _, rfl, rfl, rfl⟩ := h
    rw [List.append_nil]
    rfl
  case aenc =>
    obtain ⟨name, _, hn, ssid, _, hs, hi3, _, rfl, ext, _, rfl, rfl, rfl⟩ := h
    rw [listBytes_of_readList hn, intBytes_of_readInt hs, List.append_nil]
    rfl
  case uib =>
    obtain ⟨srcName, _, hn, srcSsid, _, hs, dstName, _, hdn, dstSsid, _, hds, payload, _, hp, padlen, _, hl, rfl, rfl⟩ := h
    rw [listBytes_of_readList hn, intBytes_of_readInt hs, listBytes_of_readList hdn, intBytes_of_readInt hds,
      listBytes_of_readList hp, intBytes_of_readInt hl, List.append_nil]
    rfl

theorem encode_of_decodeOp {xs : Bytes} {i : Instr} (h : decodeOp xs = .ok i) : encode i = ⟨.op, xs⟩ := by
  cases xs with
  | nil => cases h
  | cons b xs =>
    simp only [decodeOp] at h
    split at h
    · cases h
    · rename_i op ho
      rw [eq_opByte_of_opOf ho]
      exact encode_of_readOperands (malformedIfNone_eq_ok_iff.mp h)

theorem decodeOp_of_readOperands {b : Byte} {op : Op} {xs : Bytes} {i : Instr} (ho : opOf b = some op)
    (h : readOperands op xs = some i) : decodeOp (b :: xs) = .ok i := by
  simp only [decodeOp, ho, h, malformedIfNone]

theorem decodeOp_encode {i : Instr} (hs : (encode i).space = .op) : decodeOp (encode i).bytes = .ok i := by
  cases i <;> cases hs
  all_goals
    refine decodeOp_of_readOperands rfl ?_
    simp [readOperands, readInst, readOneByte, readByte, atEnd]

/-! ### The tables of one byte (R63 to R65) -/

theorem decodeSingle_eq_ok_iff {row : Byte → Option Instr} {xs : Bytes} {i : Instr} :
    decodeSingle row xs = .ok i ↔ ∃ b, xs = [b] ∧ row b = some i := by
  match xs with
  | [] => simp [decodeSingle]
  | [b] => simp [decodeSingle, malformedIfNone_eq_ok_iff]
  | _ :: _ :: _ => simp [decodeSingle]

theorem encode_of_decodeCtrl {c : Byte} {i : Instr} (h : decodeCtrl c = some i) : encode i = ⟨.ctrl8, [c]⟩ :=
  (by decide : ∀ c : Byte, ∀ i ∈ decodeCtrl c, encode i = ⟨.ctrl8, [c]⟩) c i h

theorem encode_of_decodePid {p : Byte} {i : Instr} (h : decodePid p = some i) : encode i = ⟨.pid8, [p]⟩ :=
  (by decide : ∀ p : Byte, ∀ i ∈ decodePid p, encode i = ⟨.pid8, [p]⟩) p i h

theorem decodeCtrl_encode {i : Instr} (hs : (encode i).space = .ctrl8) (hw : i.wellFormed = true) :
    decodeSingle decodeCtrl (encode i).bytes = .ok i := by
  cases i <;> cases hs
  case ctrlI ns pf nr => revert ns pf nr; decide
  case ctrlS nr x => revert nr x; decide
  case uUnknown x => revert x; decide
  all_goals
    rename_i p
    revert p
    decide

theorem decodePid_encode {i : Instr} (hs : (encode i).space = .pid8) (hw : i.wellFormed = true) :
    decodeSingle decodePid (encode i).bytes = .ok i := by
  cases i <;> cases hs
  case pidUnknown p => revert p; decide
  all_goals rfl

end Sys2Proof

namespace Sys2Proof.Machine

/-! ### The deframer's keys (R57) -/

/-- Bit 8 of the key of an instance in an escape state, as the byte a message carries it in (R57, log entry 3). -/
def escBit : Esc → Byte
  | .normal => 0
  | .escaped => 1

theorem escBit_le (esc : Esc) : (escBit esc).toNat ≤ 1 := by
  cases esc <;> decide

theorem exists_escBit {b : Byte} (h : b.toNat ≤ 1) : ∃ esc, b = escBit esc :=
  if h0 : b.toNat = 0 then ⟨.normal, BitVec.eq_of_toNat_eq h0⟩
  else ⟨.escaped, BitVec.eq_of_toNat_eq (Nat.le_antisymm h (Nat.pos_of_ne_zero h0))⟩

/-- The 9-bit key of a byte received in an escape state (R57). -/
def keyOf (esc : Esc) (b : Byte) : BitVec 9 := BitVec.ofNat 9 ((if esc = .escaped then 256 else 0) + b.toNat)

/-- The row of the RXCLASS table that a byte received in an escape state selects (R57), said without the table's masks. -/
inductive KeyRow (inst : Nat) : Esc → Byte → Instr → Prop where
  | nEsc : KeyRow inst .normal 0xDB (.nEsc inst)
  | nDelim : KeyRow inst .normal 0xC0 (.nDelim inst)
  | nData {b : Byte} : b ≠ 0xC0 → b ≠ 0xDB → KeyRow inst .normal b (.nData inst b)
  | eTesc : KeyRow inst .escaped 0xDD (.eTesc inst)
  | eTdelim : KeyRow inst .escaped 0xDC (.eTdelim inst)
  | eViol {b : Byte} : b ≠ 0xDC → b ≠ 0xDD → KeyRow inst .escaped b (.eViol inst b)

/-- Every key selects a row. -/
theorem exists_keyRow (inst : Nat) (esc : Esc) (b : Byte) : ∃ i, KeyRow inst esc b i := by
  cases esc with
  | normal =>
    by_cases hDB : b = 0xDB
    · subst hDB
      exact ⟨_, .nEsc⟩
    by_cases hC0 : b = 0xC0
    · subst hC0
      exact ⟨_, .nDelim⟩
    · exact ⟨_, .nData hC0 hDB⟩
  | escaped =>
    by_cases hDD : b = 0xDD
    · subst hDD
      exact ⟨_, .eTesc⟩
    by_cases hDC : b = 0xDC
    · subst hDC
      exact ⟨_, .eTdelim⟩
    · exact ⟨_, .eViol hDC hDD⟩

theorem keyOf_setWidth (esc : Esc) (b : Byte) : (keyOf esc b).setWidth 8 = b := by
  cases esc <;> revert b <;> decide

theorem keyOf_escBit (esc : Esc) (b : Byte) : BitVec.ofNat 9 (b.toNat + 256 * (escBit esc).toNat) = keyOf esc b := by
  cases esc <;> simp [keyOf, escBit, Nat.add_comm]

theorem keyOf_and_escBit (esc : Esc) (b : Byte) : keyOf esc b &&& 0x100 = keyOf esc 0 := by
  cases esc <;> revert b <;> decide

theorem keyOf_inj {esc esc' : Esc} {b c : Byte} (h : keyOf esc b = keyOf esc' c) : esc = esc' ∧ b = c := by
  have hbit : keyOf esc 0 = keyOf esc' 0 := by rw [← keyOf_and_escBit esc b, h, keyOf_and_escBit]
  have hesc : esc = esc' := by cases esc <;> cases esc' <;> simp_all [keyOf]
  exact ⟨hesc, by rw [← keyOf_setWidth esc b, h, keyOf_setWidth]⟩

theorem firstRow_pos {n : Nat} {α : Type} {k bits mask : BitVec n} (h : k &&& mask = bits) (a : α)
    (rows : List (BitVec n × BitVec n × α)) : firstRow k ((bits, mask, a) :: rows) = some a := if_pos h

theorem firstRow_neg {n : Nat} {α : Type} {k bits mask : BitVec n} (h : k &&& mask ≠ bits) (a : α)
    (rows : List (BitVec n × BitVec n × α)) : firstRow k ((bits, mask, a) :: rows) = firstRow k rows := if_neg h

/-- A row that stands for one whole key is passed by for every other key. -/
theorem firstRow_other_key {α : Type} {esc : Esc} {b : Byte} (esc' : Esc) (c : Byte) (h : esc = esc' → b ≠ c) (a : α)
    (rows : List (BitVec 9 × BitVec 9 × α)) :
    firstRow (keyOf esc b) ((keyOf esc' c, 0x1FF, a) :: rows) = firstRow (keyOf esc b) rows := by
  refine firstRow_neg (fun hk => ?_) a rows
  obtain ⟨he, hb⟩ := keyOf_inj (BitVec.and_allOnes.symm.trans hk)
  exact h he hb

theorem decodeKey_of_firstRow {inst : Nat} {esc : Esc} {b : Byte} {mk : Nat → Byte → Instr}
    (h : firstRow (keyOf esc b) rxRows = some mk) : decodeKey inst (keyOf esc b) = some (mk inst b) := by
  rw [decodeKey, h, Option.map_some, keyOf_setWidth]

/-- The table's masks select the row of the key: the rows that stand for one key go before the two that take the rest. -/
theorem KeyRow.decodeKey_eq {inst : Nat} {esc : Esc} {b : Byte} {i : Instr} (h : KeyRow inst esc b i) :
    decodeKey inst (keyOf esc b) = some i := by
  cases h with
  | nEsc => rfl
  | nDelim => rfl
  | nData hC0 hDB =>
    refine decodeKey_of_firstRow (mk := fun i b => .nData i b) ?_
    calc firstRow (keyOf .normal b) rxRows
      _ = firstRow (keyOf .normal b) (rxRows.drop 1) := firstRow_other_key .normal 0xDB (fun _ => hDB) ..
      _ = firstRow (keyOf .normal b) (rxRows.drop 2) := firstRow_other_key .normal 0xC0 (fun _ => hC0) ..
      _ = some fun i b => .nData i b := firstRow_pos (keyOf_and_escBit .normal b) ..
  | eTesc => rfl
  | eTdelim => rfl
  | eViol hDC hDD =>
    refine decodeKey_of_firstRow (mk := fun i b => .eViol i b) ?_
    have hbit : keyOf .escaped b &&& 0x100 = 0x100 := keyOf_and_escBit .escaped b
    have apart (c : Byte) : Esc.escaped = .normal → b ≠ c := nofun
    calc firstRow (keyOf .escaped b) rxRows
      _ = firstRow (keyOf .escaped b) (rxRows.drop 1) := firstRow_other_key .normal 0xDB (apart _) ..
      _ = firstRow (keyOf .escaped b) (rxRows.drop 2) := firstRow_other_key .normal 0xC0 (apart _) ..
      _ = firstRow (keyOf .escaped b) (rxRows.drop 3) := firstRow_neg (by rw [hbit]; decide) ..
      _ = firstRow (keyOf .escaped b) (rxRows.drop 4) := firstRow_other_key .escaped 0xDD (fun _ => hDD) ..
      _ = firstRow (keyOf .escaped b) (rxRows.drop 5) := firstRow_other_key .escaped 0xDC (fun _ => hDC) ..
      _ = some fun i b => .eViol i b := firstRow_pos hbit ..

theorem KeyRow.encode_eq {inst : Nat} {esc : Esc} {b : Byte} {i : Instr} (h : KeyRow inst esc b i) :
    encode i = rxMsg (escBit esc) b inst := by
  cases h <;> rfl

theorem keyRow_of_decodeKey {inst : Nat} {esc : Esc} {b : Byte} {i : Instr}
    (h : decodeKey inst (keyOf esc b) = some i) : KeyRow inst esc b i := by
  obtain ⟨j, hj⟩ := exists_keyRow inst esc b
  rwa [Option.some.inj (h.symm.trans hj.decodeKey_eq)]

theorem KeyRow.decodeRx_eq {inst : Nat} {esc : Esc} {b : Byte} {i : Instr} (h : KeyRow inst esc b i) :
    decodeRx (rxMsg (escBit esc) b inst).bytes = .ok i := by
  simp [rxMsg, decodeRx, escBit_le, keyOf_escBit, h.decodeKey_eq, atEnd, malformedIfNone]

theorem encode_of_decodeRx {xs : Bytes} {i : Instr} (h : decodeRx xs = .ok i) : encode i = ⟨.rxclass, xs⟩ := by
  match xs with
  | [] => cases h
  | [_] => cases h
  | lo :: hi :: xs =>
    simp only [decodeRx] at h
    split at h
    · rename_i hle
      obtain ⟨esc, rfl⟩ := exists_escBit hle
      simp only [malformedIfNone_eq_ok_iff, Option.bind_eq_bind, Option.bind_eq_some_iff, Prod.exists, readNat_eq_some_iff,
        atEnd_eq_some, keyOf_escBit] at h
      obtain ⟨inst, _, rfl, _, hkey, rfl, rfl⟩ := h
      rw [(keyRow_of_decodeKey hkey).encode_eq, List.append_nil]
      rfl
    · cases h

/-- Every well-formed instruction of the RXCLASS format is the row of some key. -/
theorem exists_keyRow_of_space {i : Instr} (hs : (encode i).space = .rxclass) (hw : i.wellFormed = true) :
    ∃ inst esc b, KeyRow inst esc b i := by
  cases i <;> cases hs
  case nEsc => exact ⟨_, _, _, .nEsc⟩
  case nDelim => exact ⟨_, _, _, .nDelim⟩
  case eTesc => exact ⟨_, _, _, .eTesc⟩
  case eTdelim => exact ⟨_, _, _, .eTdelim⟩
  case nData =>
    obtain ⟨hC0, hDB⟩ : _ ≠ _ ∧ _ ≠ _ := by simpa [Instr.wellFormed] using hw
    exact ⟨_, _, _, .nData hC0 hDB⟩
  case eViol =>
    obtain ⟨hDC, hDD⟩ : _ ≠ _ ∧ _ ≠ _ := by simpa [Instr.wellFormed] using hw
    exact ⟨_, _, _, .eViol hDC hDD⟩

theorem decodeRx_encode {i : Instr} (hs : (encode i).space = .rxclass) (hw : i.wellFormed = true) :
    decodeRx (encode i).bytes = .ok i := by
  obtain ⟨inst, esc, b, hrow⟩ := exists_keyRow_of_space hs hw
  rw [hrow.encode_eq, hrow.decodeRx_eq]

/-! ### The round trips -/

/-- Settles O10: each format reads back what the encoder writes in it. -/
theorem decodeOfEncodeIsTheInstruction : Obligations.DecodeOfEncodeIsTheInstruction := by
  intro i hw
  unfold decode
  split
  next hs => exact decodeOp_encode hs
  next hs => exact decodeRx_encode hs hw
  next hs => exact decodeCtrl_encode hs hw
  next hs => exact decodePid_encode hs hw

theorem encode_of_decodeSingle {row : Byte → Option Instr} {space : Space} {xs : Bytes} {i : Instr}
    (hrow : ∀ b i, row b = some i → encode i = ⟨space, [b]⟩) (h : decodeSingle row xs = .ok i) :
    encode i = ⟨space, xs⟩ := by
  obtain ⟨b, rfl, hb⟩ := decodeSingle_eq_ok_iff.mp h
  exact hrow b i hb

/-- Settles O11: in each format, what is read is what the encoder writes. -/
theorem encodeOfDecodeIsTheMessage : Obligations.EncodeOfDecodeIsTheMessage := by
  rintro ⟨space, xs⟩ i h
  cases space with
  | op => exact encode_of_decodeOp h
  | rxclass => exact encode_of_decodeRx h
  | ctrl8 => exact encode_of_decodeSingle (fun _ _ => encode_of_decodeCtrl) h
  | pid8 => exact encode_of_decodeSingle (fun _ _ => encode_of_decodePid) h

/-- Settles O9: the decoder evaluates each word. -/
theorem specWordsDecode : Obligations.SpecWordsDecode :=
  ⟨rfl, rfl, rfl, rfl, rfl, rfl, rfl, rfl, rfl, rfl, rfl⟩

/-! ### The rows of the tables as instructions (log entry 3) -/

/-- On an instance in the row's escape state, the row does what RXB does with the row's byte. -/
theorem KeyRow.exec_eq {s : State} {inst : Nat} {d : Dfr} {b : Byte} {i : Instr} (hd : s.dfr[inst]? = some d)
    (h : KeyRow inst d.esc b i) : exec i s = execRxb inst b s := by
  generalize he : d.esc = esc at h
  have selected {c : RxClass} (hc : rxClass esc b = c) : rxRow c inst b s = execRxb inst b s :=
    rxRow_selected hd (he ▸ hc)
  cases h with
  | nEsc => exact selected rxClass_normal_escape
  | nDelim => exact selected rxClass_normal_delimiter
  | nData hC0 hDB => exact selected (rxClass_data hDB hC0)
  | eTesc => exact selected rxClass_escaped_transEscape
  | eTdelim => exact selected rxClass_escaped_transDelimiter
  | eViol hDC hDD => exact selected (rxClass_violation hDD hDC)

/-- Settles O12: the key of the byte and the instance's escape state selects a row, and that row does what RXB does. -/
theorem rxbRunsTheRowOfItsKey : Obligations.RxbRunsTheRowOfItsKey := by
  intro s inst d b hd
  obtain ⟨row, hrow⟩ := exists_keyRow inst d.esc b
  exact ⟨row, hrow.decodeKey_eq, (hrow.exec_eq hd).symm⟩

/-- A row of the RXCLASS table is refused where the byte and the escape state select another. -/
theorem rxRow_not_selected {c : RxClass} {inst : Nat} {b : Byte} {s : State} {d : Dfr} (hd : s.dfr[inst]? = some d)
    (hc : rxClass d.esc b ≠ c) : rxRow c inst b s = .refused .rowNotSelected := by
  rw [rxRow, withInst_some hd, if_neg hc]

theorem rxClass_eq_nData_iff {esc : Esc} {b : Byte} :
    rxClass esc b = .nData ↔ esc = .normal ∧ b ≠ 0xC0 ∧ b ≠ 0xDB := by
  cases esc <;> unfold rxClass <;> split_ifs <;> simp_all

theorem rxClass_eq_eViol_iff {esc : Esc} {b : Byte} :
    rxClass esc b = .eViol ↔ esc = .escaped ∧ b ≠ 0xDC ∧ b ≠ 0xDD := by
  cases esc <;> unfold rxClass <;> split_ifs <;> simp_all

/-- Settles O13: in each clause the class of the byte and the escape state is not the row's. -/
theorem rowRefusedWhereItsKeySelectsAnother : Obligations.RowRefusedWhereItsKeySelectsAnother := by
  intro s inst d hd
  have refuses {c : RxClass} {b : Byte} (hc : rxClass d.esc b ≠ c) : rxRow c inst b s = .refused .rowNotSelected :=
    rxRow_not_selected hd hc
  refine ⟨fun he => ?_, fun he => ?_, fun b hb => ?_, fun b hb => ?_⟩
  · rw [he] at refuses
    exact ⟨refuses (by decide), refuses (by decide), fun b => refuses (by simp [rxClass_eq_nData_iff])⟩
  · rw [he] at refuses
    exact ⟨refuses (by decide), refuses (by decide), fun b => refuses (by simp [rxClass_eq_eViol_iff])⟩
  · refine refuses fun hc => ?_
    obtain ⟨-, hC0, hDB⟩ := rxClass_eq_nData_iff.mp hc
    exact hb.elim hC0 hDB
  · refine refuses fun hc => ?_
    obtain ⟨-, hDC, hDD⟩ := rxClass_eq_eViol_iff.mp hc
    exact hb.elim hDC hDD

/-- The frame type that a row of the CTRL8 table returns, where its operand selects it (R117 to R119). -/
def ctrlRowType : Instr → Option FrameType
  | .ctrlI ns pf nr => some (.i ns pf nr)
  | .ctrlS nr _ => some (.s nr)
  | .uSabme _ => some (.u .sabme)
  | .uSabm _ => some (.u .sabm)
  | .uDisc _ => some (.u .disc)
  | .uDm _ => some (.u .dm)
  | .uUa _ => some (.u .ua)
  | .uFrmr _ => some (.u .frmr)
  | .uUi _ => some (.u .ui)
  | .uXid _ => some (.u .xid)
  | .uTest _ => some (.u .test)
  | .uUnknown x => if (Instr.uUnknown x).wellFormed then some (.u .unknown) else none
  | _ => none

theorem wellFormed_uUnknown_iff (x : BitVec 6) :
    (Instr.uUnknown x).wellFormed = true ↔ usub (uByte x &&& 0xEF) = .unknown := by
  revert x
  decide

theorem exec_of_ctrlRowType {i : Instr} {t : FrameType} (h : ctrlRowType i = some t) (s : State) :
    exec i s = replyType t s := by
  cases i <;> simp only [ctrlRowType, reduceCtorEq] at h
  case uUnknown x =>
    obtain ⟨hw, h⟩ := Option.ite_none_right_eq_some.mp h
    cases h
    exact if_pos ((wellFormed_uUnknown_iff x).mp hw)
  all_goals
    cases h
    rfl

/-- The row that a control byte selects gives the byte's frame type. -/
theorem decodeCtrl_rowType (c : Byte) : (decodeCtrl c).bind ctrlRowType = some (classify c) := by
  revert c
  decide

/-- Settles O14: the row selected returns the frame type that CDEC returns. -/
theorem cdecRunsTheRowOfItsByte : Obligations.CdecRunsTheRowOfItsByte := by
  intro c s
  obtain ⟨row, hrow, ht⟩ := Option.bind_eq_some_iff.mp (decodeCtrl_rowType c)
  exact ⟨row, hrow, (exec_of_ctrlRowType ht s).symm⟩

/-- Settles O46: each row returns its frame type, and U_Unknown asks that its value be no named row's. -/
theorem ctrlRowsGiveTheirFrameType : Obligations.CtrlRowsGiveTheirFrameType := by
  intro s
  have gives {i : Instr} {t : FrameType} (h : ctrlRowType i = some t) :
      exec i s = .next { s with results := s.results ++ [.frameType t] } := exec_of_ctrlRowType h s
  exact ⟨fun _ _ _ => gives rfl, fun _ _ => gives rfl, fun _ => gives rfl, fun _ => gives rfl, fun _ => gives rfl,
    fun _ => gives rfl, fun _ => gives rfl, fun _ => gives rfl, fun _ => gives rfl, fun _ => gives rfl, fun _ => gives rfl,
    fun _ hw => gives (if_pos hw),
    fun x hw => if_neg ((wellFormed_uUnknown_iff x).not.mp (Bool.eq_false_iff.mp hw))⟩

/-- The kind that a row of the PID8 table returns, where its operand selects it (R121, R122). -/
def pidRowKind : Instr → Option PidKind
  | .pidIso8208 => some .iso8208
  | .pidCompressedTcpip => some .compressedTcpip
  | .pidUncompressedTcpip => some .uncompressedTcpip
  | .pidSegmentationFragment => some .segmentationFragment
  | .pidTexnet => some .texnet
  | .pidLinkQuality => some .linkQuality
  | .pidAppletalk => some .appletalk
  | .pidArpaIp => some .arpaIp
  | .pidArpaArp => some .arpaArp
  | .pidNetrom => some .netrom
  | .pidNoLayer3 => some .noLayer3
  | .pidEscape => some .escape
  | .pidUnknown p => if (Instr.pidUnknown p).wellFormed then some .unknown else none
  | _ => none

theorem wellFormed_pidUnknown_iff (p : Byte) : (Instr.pidUnknown p).wellFormed = true ↔ pidKindOf p = .unknown := by
  revert p
  decide

theorem exec_of_pidRowKind {i : Instr} {k : PidKind} (h : pidRowKind i = some k) (s : State) :
    exec i s = replyKind k s := by
  cases i <;> simp only [pidRowKind, reduceCtorEq] at h
  case pidUnknown p =>
    obtain ⟨hw, h⟩ := Option.ite_none_right_eq_some.mp h
    cases h
    exact if_pos ((wellFormed_pidUnknown_iff p).mp hw)
  all_goals
    cases h
    rfl

/-- The row that a protocol-ID byte selects gives the byte's kind. -/
theorem decodePid_rowKind (p : Byte) : (decodePid p).bind pidRowKind = some (pidKindOf p) := by
  revert p
  decide

/-- Settles O15: the row selected returns the kind that PDEC returns. -/
theorem pdecRunsTheRowOfItsByte : Obligations.PdecRunsTheRowOfItsByte := by
  intro p s
  obtain ⟨row, hrow, hk⟩ := Option.bind_eq_some_iff.mp (decodePid_rowKind p)
  exact ⟨row, hrow, (exec_of_pidRowKind hk s).symm⟩

/-- Settles O47: each row returns its kind, and PID_Unknown asks that its byte be no named row's. -/
theorem pidRowsGiveTheirKind : Obligations.PidRowsGiveTheirKind := by
  intro s
  have gives {i : Instr} {k : PidKind} (h : pidRowKind i = some k) :
      exec i s = .next { s with results := s.results ++ [.pidKind k] } := exec_of_pidRowKind h s
  exact ⟨gives rfl, gives rfl, gives rfl, gives rfl, gives rfl, gives rfl, gives rfl, gives rfl, gives rfl, gives rfl,
    gives rfl, gives rfl, fun _ hw => gives (if_pos hw),
    fun p hw => if_neg ((wellFormed_pidUnknown_iff p).not.mp (Bool.eq_false_iff.mp hw))⟩

/-! ### Refusals (R72, R139) -/

/-- BadInst comes before every other answer. -/
theorem exec_badInst {i : Instr} {inst : Nat} {s : State} (hi : target i = some inst) (h : s.dfr.length ≤ inst) :
    exec i s = .refused .badInst := by
  have hnone : s.dfr[inst]? = none := List.getElem?_eq_none h
  cases i <;> cases hi
  all_goals exact withInst_none hnone _

theorem execAdec_refused {a : Bytes} (h : a.length ≠ 7) (s : State) : execAdec a s = .refused .notSevenBytes := by
  unfold execAdec
  split
  · exact absurd rfl h
  · rfl

/-- Settles O17: the existence of the instance is asked first, and the three operand checks are the operations' own. -/
theorem refusalReasons : Obligations.RefusalReasons := by
  intro s
  exact ⟨fun _ _ => exec_badInst, fun _ _ h => if_pos h, rfl, fun _ h => execAdec_refused h s⟩

theorem opOf_eq_none {op : Byte}
    (h : op ∉ ([0x01, 0x02, 0x03, 0x04, 0x05, 0x10, 0x11, 0x12, 0x13, 0x20, 0x21, 0x30, 0x31, 0x32, 0x40, 0x50] : Bytes)) :
    opOf op = none := by
  rw [opOf, List.lookup_eq_none_iff]
  intro p hp
  have hmem : p.1 ∈ opTable.map Prod.fst := List.mem_map_of_mem hp
  exact bne_iff_ne.mpr fun he => h (he ▸ hmem)

theorem decodeOp_badOp {op : Byte} (h : opOf op = none) (xs : Bytes) : decodeOp (op :: xs) = .error .badOp := by
  rw [decodeOp, h]

/-- A step whose first request is no instruction is refused. -/
theorem step_refused_of_decode {s : State} {r : Request} {rest : List Request} {e : DecodeError}
    (hp : s.pending = r :: rest) (h : decode r.message = .error e) : step s = .refused (refusalOf e) := by
  rw [step, hp]
  exact serve_refused rfl (attempt_error h _)

/-- RXB on an existing instance is accepted or waits. -/
theorem execRxb_ne_refused {inst : Nat} {b : Byte} {s : State} {d : Dfr} (hd : s.dfr[inst]? = some d) (r : Refusal) :
    execRxb inst b s ≠ .refused r := by
  cases hc : d.closed with
  | true =>
    rw [execRxb_of_rxFault hd (.closed hc)]
    nofun
  | false =>
    obtain ⟨d', hs⟩ | ⟨f, hf⟩ := rxStep_or_rxFault hc s.cfg b
    · rw [execRxb_of_step hd hc hs]
      nofun
    · rw [execRxb_of_rxFault hd hf]
      nofun

/-- An operation on an instance that exists is accepted or waits. The RXCLASS rows are no operations, and are refused. -/
theorem exec_target_ne_refused {i : Instr} {inst : Nat} {s : State} (hs : (encode i).space = .op)
    (hi : target i = some inst) (hlt : inst < s.dfr.length) (r : Refusal) : exec i s ≠ .refused r := by
  obtain ⟨d, hd⟩ : ∃ d, s.dfr[inst]? = some d := ⟨_, List.getElem?_eq_getElem hlt⟩
  cases i <;> cases hs <;> cases hi
  case rxb => exact execRxb_ne_refused hd r
  case eof =>
    simp only [exec, execEof, withInst_some hd]
    split <;> nofun
  case pop =>
    simp only [exec, execPop, withInst_some hd]
    split
    · split <;> nofun
    · nofun
  case stat =>
    simp only [exec, execStat, withInst_some hd]
    nofun
  case rst =>
    simp only [exec, execRst, withInst_some hd]
    nofun

theorem execTypb_refused_iff {port command : Nat} {s : State} :
    (∃ r, execTypb port command s = .refused r) ↔ ¬ (port ≤ 15 ∧ command ≤ 15) := by
  unfold execTypb
  split_ifs with h
  · exact iff_of_true ⟨_, rfl⟩ (by omega)
  · exact iff_of_false nofun (by omega)

theorem execSplit_refused_iff {f : Bytes} {s : State} : (∃ r, execSplit f s = .refused r) ↔ f = [] := by
  cases f <;> simp [execSplit]

theorem execAdec_refused_iff {a : Bytes} {s : State} : (∃ r, execAdec a s = .refused r) ↔ a.length ≠ 7 := by
  refine ⟨fun ⟨r, hr⟩ hl => ?_, fun h => ⟨_, execAdec_refused h s⟩⟩
  match a, hl with
  | [_, _, _, _, _, _, _], _ => nomatch hr

theorem execAenc_refused_iff {name : Bytes} {ssid : Int} {hi3 ext : Nat} {s : State} :
    (∃ r, execAenc name ssid hi3 ext s = .refused r) ↔
      ¬ (isName name = true ∧ hi3 ≤ 7 ∧ ext ≤ 1 ∧ clampSsid s.cfg.ssidClampMax ssid ≠ 16) := by
  rw [← encodeAddr_error_iff]
  unfold execAenc
  split <;> simp_all

/-- UIB is refused exactly when one of its two addresses is. -/
theorem execUib_refused_iff {srcName : Bytes} {srcSsid : Int} {dstName : Bytes} {dstSsid : Int} {payload : Bytes}
    {padlen : Int} {s : State} :
    (∃ r, execUib srcName srcSsid dstName dstSsid payload padlen s = .refused r) ↔
      (∃ r, encodeAddr s.cfg.ssidClampMax dstName dstSsid s.cfg.dstHi3.toNat 0 = .error r) ∨
        ∃ r, encodeAddr s.cfg.ssidClampMax srcName srcSsid s.cfg.srcHi3.toNat 1 = .error r := by
  unfold execUib
  split
  · simp_all
  · split <;> simp_all

theorem admits_iff_of_target {i : Instr} {inst : Nat} {s : State} (hs : (encode i).space = .op)
    (hi : target i = some inst) : Admits s i ↔ inst < s.dfr.length := by
  cases i <;> cases hs <;> cases hi
  all_goals simp [Admits, Instr.wellFormed, target, ssids]

theorem admits_iff_of_stateless {i : Instr} {s : State} (hi : target i = none) :
    Admits s i ↔ i.wellFormed = true ∧ ∀ z ∈ ssids i, clampSsid s.cfg.ssidClampMax z ≠ 16 := by
  simp [Admits, hi]

/-- An operation of a stateless unit is refused exactly outside its operands' domains. -/
theorem exec_stateless_refused_iff {i : Instr} {s : State} (hs : (encode i).space = .op) (hi : target i = none) :
    (∃ r, exec i s = .refused r) ↔ ¬ Admits s i := by
  rw [admits_iff_of_stateless hi]
  cases i <;> cases hs <;> cases hi
  case typb => exact execTypb_refused_iff.trans (by simp [Instr.wellFormed, ssids])
  case split => exact execSplit_refused_iff.trans (by simp [Instr.wellFormed, ssids])
  case adec => exact execAdec_refused_iff.trans (by simp [Instr.wellFormed, ssids])
  case aenc => exact execAenc_refused_iff.trans (by simp [Instr.wellFormed, ssids, and_assoc])
  case uib =>
    have hdst : s.cfg.dstHi3.toNat ≤ 7 := Nat.le_of_lt_succ s.cfg.dstHi3.isLt
    have hsrc : s.cfg.srcHi3.toNat ≤ 7 := Nat.le_of_lt_succ s.cfg.srcHi3.isLt
    rw [exec, execUib_refused_iff, encodeAddr_error_iff, encodeAddr_error_iff, ← not_and_or]
    simp [Instr.wellFormed, ssids, hdst, hsrc, and_assoc, and_left_comm]
  all_goals simp [exec, execEnc, execEsc, execHdec, execCdec, execPdec, execCks, Instr.wellFormed, ssids]

/-- An operation is refused exactly outside the admitted domain. -/
theorem exec_refused_iff_not_admits {i : Instr} {s : State} (hs : (encode i).space = .op) :
    (∃ r, exec i s = .refused r) ↔ ¬ Admits s i := by
  cases hi : target i with
  | none => exact exec_stateless_refused_iff hs hi
  | some inst =>
    rw [admits_iff_of_target hs hi]
    exact ⟨fun ⟨r, hr⟩ hlt => exec_target_ne_refused hs hi hlt r hr, fun h => ⟨_, exec_badInst hi (Nat.not_lt.mp h)⟩⟩

/-- Settles O16: no such op byte is in the table, and an operation's refusal is its operands' or its instance's. -/
theorem refusedExactlyOutsideTheDomain : Obligations.RefusedExactlyOutsideTheDomain := by
  refine ⟨fun op xs hop => ?_, fun i s => exec_refused_iff_not_admits⟩
  have hbad : decode ⟨.op, op :: xs⟩ = .error .badOp := decodeOp_badOp (opOf_eq_none hop) xs
  exact ⟨hbad, fun _ _ _ hp => step_refused_of_decode hp hbad⟩

end Sys2Proof.Machine

/-! ### The checksum unit (40_checksum.md R77, R80) -/

namespace Sys2Proof.Machine

/-- CKS replies with the open parameter at exactly the bytes it is given, whatever the state. -/
theorem exec_cks (xs : Bytes) (s : State) : exec (.cks xs) s = .next (s.reply (.checksum (Config.checksum xs))) := rfl

/-- Settles O54: a reply appends its result and changes nothing else. -/
theorem cksAppliesTheChecksum : Obligations.CksAppliesTheChecksum := exec_cks

end Sys2Proof.Machine

/-! ### The address codec unit (41_callsign_codec.md) -/

namespace Sys2Proof.Machine

/-! #### What AENC and ADEC answer -/

theorem execAenc_refused {name : Bytes} {ssid : Int} {hi3 ext : Nat} {s : State} {r : Refusal}
    (h : encodeAddr s.cfg.ssidClampMax name ssid hi3 ext = .error r) : execAenc name ssid hi3 ext s = .refused r := by
  rw [execAenc, h]

/-- On admitted operands AENC returns the entry of R85. -/
theorem execAenc_ok {name : Bytes} {ssid : Int} {hi3 ext : Nat} {s : State} (hn : ∀ c ∈ name, c.toNat ≤ 127)
    (hh : hi3 ≤ 7) (he : ext ≤ 1) (hs : s.cfg.ssidClampMax = .sixteen → ssid < 16) :
    execAenc name ssid hi3 ext s = .next (s.reply (.bytes
      ((sixChars name).map (fun c : Byte => c <<< 1) ++ [packSsid hi3 (min (max ssid 0) 15).toNat ext]))) := by
  rw [execAenc, encodeAddr_ok hn hh he hs]

/-- ADEC takes any seven bytes as six characters and the SSID byte. -/
theorem execAdec_append {chars : Bytes} (h : chars.length = 6) (c6 : Byte) (s : State) :
    execAdec (chars ++ [c6]) s = .next (s.reply (.addr (decodeEntry chars c6))) := by
  match chars, h with
  | [_, _, _, _, _, _], _ => rfl

/-! #### The order of AENC's checks (R81, R140) -/

/-- The name is checked first. -/
theorem encodeAddr_nameNot7Bit {name : Bytes} (hn : ∃ c ∈ name, 127 < c.toNat) (m : ClampMax) (ssid : Int)
    (hi3 ext : Nat) : encodeAddr m name ssid hi3 ext = .error .nameNot7Bit := by
  have h : isName name = false := by simpa [isName] using hn
  simp [encodeAddr, h]

/-- hi3 and ext are checked behind the name. -/
theorem encodeAddr_operandRange {name : Bytes} {hi3 ext : Nat} (hn : ∀ c ∈ name, c.toNat ≤ 127)
    (hr : 7 < hi3 ∨ 1 < ext) (m : ClampMax) (ssid : Int) : encodeAddr m name ssid hi3 ext = .error .operandRange := by
  simp [encodeAddr, isName_iff.mpr hn, hr]

theorem clampSsid_sixteen {ssid : Int} (h : 16 ≤ ssid) : clampSsid .sixteen ssid = 16 := by
  simp only [clampSsid, clampBound]
  omega

/-- The clamped SSID is checked last. -/
theorem encodeAddr_ssidSixteen {name : Bytes} {ssid : Int} {hi3 ext : Nat} (hn : ∀ c ∈ name, c.toNat ≤ 127)
    (hh : hi3 ≤ 7) (he : ext ≤ 1) (hs : 16 ≤ ssid) : encodeAddr .sixteen name ssid hi3 ext = .error .ssidSixteen := by
  simp [encodeAddr, isName_iff.mpr hn, Nat.not_lt.mpr hh, Nat.not_lt.mpr he, clampSsid_sixteen hs]

/-- Settles O18: each clause is one check of the encoder, met behind the checks before it. -/
theorem aencChecksInOrder : Obligations.AencChecksInOrder := by
  intro s name ssid hi3 ext
  refine ⟨fun hn => execAenc_refused (encodeAddr_nameNot7Bit hn ..), fun hn => ⟨fun hr => ?_, fun hh he hm hs => ?_⟩⟩
  · exact execAenc_refused (encodeAddr_operandRange hn hr ..)
  · exact execAenc_refused (hm ▸ encodeAddr_ssidSixteen hn hh he hs)

/-! #### The six characters (R82, R83) -/

theorem upcase_toNat (c : Byte) :
    (upcase c).toNat = if 0x61 ≤ c.toNat ∧ c.toNat ≤ 0x7A then c.toNat - 0x20 else c.toNat := by
  rw [upcase, apply_ite BitVec.toNat]
  refine ite_congr rfl (fun h => ?_) fun _ => rfl
  have hle : (0x20 : Byte) ≤ c := by bv_omega
  exact BitVec.toNat_sub_of_le hle

theorem upcase_toNat_le {c : Byte} (h : c.toNat ≤ 127) : (upcase c).toNat ≤ 127 := by
  rw [upcase_toNat]
  split_ifs <;> omega

/-- A character place holds the name's character in upper case, or a space past the name's end. -/
theorem sixChars_getElem? (name : Bytes) {k : Nat} (hk : k < 6) :
    (sixChars name)[k]? = some (name[k]?.elim 0x20 upcase) := by
  cases hc : name[k]? with
  | none =>
    have hlen : name.length ≤ k := List.getElem?_eq_none_iff.mp hc
    rw [sixChars, List.getElem?_append_right (by simp; omega)]
    exact List.getElem?_replicate_of_lt (by simp; omega)
  | some c =>
    have hlen : k < name.length := (List.getElem?_eq_some_iff.mp hc).1
    rw [sixChars, List.getElem?_append_left (by simp [hk, hlen])]
    simp [hk, hc]

/-- A 7-bit code shifted left loses nothing. -/
theorem shiftLeft_one_toNat {c : Byte} (h : c.toNat ≤ 127) : (c <<< 1).toNat = 2 * c.toNat := by
  rw [BitVec.toNat_shiftLeft]
  omega

theorem shiftLeft_shiftRight_one {c : Byte} (h : c.toNat ≤ 127) : (c <<< 1) >>> 1 = c := by
  apply BitVec.eq_of_toNat_eq
  rw [BitVec.toNat_ushiftRight, shiftLeft_one_toNat h]
  omega

/-- Settles O41: a character place holds the upper-cased character or a space, doubled, and the last byte is the packed
one. -/
theorem aencBuildsTheEntry : Obligations.AencBuildsTheEntry := by
  intro s name ssid hi3 ext hn hh he hs
  have hlen := sixChars_length name
  refine ⟨_, execAenc_ok hn hh he hs, by simp [hlen], fun k hk => ?_, _, ?_, packSsid_toNat hh (by omega) he⟩
  · rw [List.getElem?_append_left (by simpa [hlen] using hk), List.getElem?_map, sixChars_getElem? name hk]
    refine ⟨_, rfl, ?_⟩
    cases hc : name[k]? with
    | none => rfl
    | some c =>
      have hle : (upcase c).toNat ≤ 127 := upcase_toNat_le (hn c (List.mem_of_getElem? hc))
      exact (shiftLeft_one_toNat hle).trans (congrArg _ (upcase_toNat c))
  · simp [hlen]

/-! #### The fields of the entry (R61, R86) -/

theorem ssidOf_toNat (b : Byte) : (ssidOf b).toNat = b.toNat / 2 % 16 := by
  simp only [ssidOf, BitVec.extractLsb'_toNat, Nat.shiftRight_eq_div_pow]

theorem crOf_toNat (b : Byte) : (crOf b).toNat = b.toNat / 128 := by
  simp only [crOf, BitVec.extractLsb'_toNat, Nat.shiftRight_eq_div_pow]
  omega

theorem rrOf_toNat (b : Byte) : (rrOf b).toNat = b.toNat / 32 % 4 := by
  simp only [rrOf, BitVec.extractLsb'_toNat, Nat.shiftRight_eq_div_pow]

theorem extOf_toNat (b : Byte) : (extOf b).toNat = b.toNat % 2 := by
  simp only [extOf, BitVec.extractLsb'_toNat, Nat.shiftRight_eq_div_pow]
  omega

theorem isPad_iff {c : Byte} : isPad c = true ↔ c = 0x20 ∨ c = 0x00 := by
  simp [isPad]

/-- Settles O42: the name is what trimming leaves of the shifted characters; the other fields are bit fields of the last
byte. -/
theorem adecReadsTheEntry : Obligations.AdecReadsTheEntry := by
  refine ⟨fun a s h => execAdec_refused h s, fun chars c6 h => ?_⟩
  obtain ⟨pads, hpads, hsplit, hlast⟩ := trimTrailing_spec (chars.map fun c : Byte => c >>> 1)
  refine ⟨decodeEntry chars c6, execAdec_append h c6, rfl, ssidOf_toNat c6, crOf_toNat c6, extOf_toNat c6, rrOf_toNat c6,
    pads, fun c hc => isPad_iff.mp (hpads c hc), hsplit, fun c hc => ?_⟩
  exact not_or.mp (isPad_iff.not.mp (Bool.eq_false_iff.mp (hlast c hc)))

/-! #### Decoding an encoded address (R89) -/

theorem upcase_of_isAlnum {c : Byte} (h : isAlnum c) : upcase c = c := by
  apply BitVec.eq_of_toNat_eq
  rw [upcase_toNat, if_neg (by unfold isAlnum at h; omega)]

theorem toNat_le_of_isAlnum {c : Byte} (h : isAlnum c) : c.toNat ≤ 127 := by
  unfold isAlnum at h
  omega

theorem isPad_of_isAlnum {c : Byte} (h : isAlnum c) : isPad c = false := by
  rw [Bool.eq_false_iff, Ne, isPad_iff]
  unfold isAlnum at h
  bv_omega

/-- A name of at most six characters, none a lower-case letter, is only filled with spaces. -/
theorem sixChars_of_upper {name : Bytes} (hl : name.length ≤ 6) (h : ∀ c ∈ name, upcase c = c) :
    sixChars name = name ++ List.replicate (6 - name.length) 0x20 := by
  simp only [sixChars, List.map_congr_left h, List.map_id', List.take_of_length_le hl, Nat.min_eq_right hl]

theorem sixChars_toNat_le {name : Bytes} (h : ∀ c ∈ name, c.toNat ≤ 127) : ∀ c ∈ sixChars name, c.toNat ≤ 127 := by
  intro c hc
  rcases List.mem_append.mp hc with hc | hc
  · obtain ⟨a, ha, rfl⟩ := List.mem_map.mp (List.mem_of_mem_take hc)
    exact upcase_toNat_le (h a ha)
  · rw [List.eq_of_mem_replicate hc]
    decide

/-- Shifting the characters of an entry back gives the six characters. -/
theorem map_shiftLeft_shiftRight {cs : Bytes} (h : ∀ c ∈ cs, c.toNat ≤ 127) :
    (cs.map fun c : Byte => c <<< 1).map (fun c : Byte => c >>> 1) = cs := by
  rw [List.map_map]
  exact (List.map_congr_left fun c hc => shiftLeft_shiftRight_one (h c hc)).trans (List.map_id' _)

/-- ADEC reads back the name that AENC wrote. -/
theorem decodeEntry_name_of_isAlnum {name : Bytes} (hl : name.length ≤ 6) (h : ∀ c ∈ name, isAlnum c) (b : Byte) :
    (decodeEntry ((sixChars name).map fun c : Byte => c <<< 1) b).name = name := by
  rw [decodeEntry, map_shiftLeft_shiftRight (sixChars_toNat_le fun c hc => toNat_le_of_isAlnum (h c hc)),
    sixChars_of_upper hl fun c hc => upcase_of_isAlnum (h c hc), trimTrailing_pads fun c hc => isPad_of_isAlnum (h c hc)]

/-- Settles O43: the filled spaces are trimmed off again, and the last byte's fields are those packed into it. -/
theorem addressRoundTrip : Obligations.AddressRoundTrip := by
  intro s name ssid hi3 ext hname hs hh he
  obtain ⟨hl, halnum⟩ : name.length ≤ 6 ∧ ∀ c ∈ name, isAlnum c := by
    rcases hname with ⟨-, hl, h⟩ | rfl
    · exact ⟨hl, h⟩
    · simp
  have hclamp : (min (max (ssid : Int) 0) 15).toNat = ssid := by omega
  obtain ⟨hssid, hcr, hrr, hext⟩ := packSsid_fields hh hs he
  have henc := execAenc_ok (s := s) (ssid := ssid) (fun c hc => toNat_le_of_isAlnum (halnum c hc)) hh he
    (fun _ => by omega)
  rw [hclamp] at henc
  exact ⟨_, henc, _, execAdec_append (by simp [sixChars_length]) _, decodeEntry_name_of_isAlnum hl halnum _,
    hssid, hcr, hrr, hext⟩

end Sys2Proof.Machine

/-! ### The KISS framer (42_kiss_framer.md) -/

namespace Sys2Proof.Machine

/-! ### One received byte (R92 to R97) -/

/-- RXB, and the row that the byte and the escape state select, leave the instance the record that the byte makes of it. -/
theorem exec_rxb_and_row {s : State} {inst : Nat} {d d' : Dfr} {esc : Esc} {b : Byte} {row : Instr}
    (hd : s.dfr[inst]? = some d) (ho : d.closed = false) (he : d.esc = esc) (hrow : KeyRow inst esc b row)
    (hs : RxStep s.cfg d b d') :
    exec (.rxb inst b) s = .next { s with dfr := s.dfr.set inst d' } ∧
      exec row s = .next { s with dfr := s.dfr.set inst d' } := by
  subst he
  have hrxb : execRxb inst b s = .next (s.setDfr inst d') := execRxb_of_step hd ho hs
  exact ⟨hrxb, (hrow.exec_eq hd).trans hrxb⟩

/-- Settles O20: the byte is an ESCAPE in Normal. -/
theorem escapeByteEntersEscaped : Obligations.EscapeByteEntersEscaped := by
  intro s i d hd ho he
  exact exec_rxb_and_row hd ho he .nEsc (.escape he rfl)

/-- Settles O21: an empty buffer leaves the record as it is, and any other is pushed. -/
theorem delimiterEndsTheFrame : Obligations.DelimiterEndsTheFrame := by
  intro s i d hd ho he
  refine ⟨fun hbuf => ?_, fun hbuf hroom => ?_⟩
  · have hself : { s with dfr := s.dfr.set i d } = s := State.setDfr_self hd
    simpa only [hself] using exec_rxb_and_row hd ho he .nDelim (.idle he rfl hbuf)
  · exact exec_rxb_and_row hd ho he .nDelim (.push he rfl hbuf (full_eq_false_iff.mpr hroom))

/-- Settles O22: a byte in Normal that is neither DELIMITER nor ESCAPE is data. -/
theorem ordinaryByteIsAppended : Obligations.OrdinaryByteIsAppended := by
  intro s i d b hd ho he hC0 hDB hroom
  exact exec_rxb_and_row hd ho he (.nData hC0 hDB) (.data he hDB hC0 (full_eq_false_iff.mpr hroom))

/-- Settles O23: the byte is a TRANS_ESCAPE in Escaped. -/
theorem transEscapeAppendsEscape : Obligations.TransEscapeAppendsEscape := by
  intro s i d hd ho he hroom
  exact exec_rxb_and_row hd ho he .eTesc (.transEscape he rfl (full_eq_false_iff.mpr hroom))

/-- Settles O24: the byte is a TRANS_DELIMITER in Escaped. -/
theorem transDelimiterAppendsDelimiter : Obligations.TransDelimiterAppendsDelimiter := by
  intro s i d hd ho he hroom
  exact exec_rxb_and_row hd ho he .eTdelim (.transDelimiter he rfl (full_eq_false_iff.mpr hroom))

/-- Settles O25: a byte in Escaped that is neither TRANS_DELIMITER nor TRANS_ESCAPE is a violation. -/
theorem violationDropsTheFrame : Obligations.ViolationDropsTheFrame := by
  intro s i d b hd ho he hDC hDD
  exact exec_rxb_and_row hd ho he (.eViol hDC hDD) (.violation he hDD hDC)

/-! ### Closure, consumption, status, reset (R98 to R101) -/

theorem execEof_open {inst : Nat} {s : State} {d : Dfr} (hd : s.dfr[inst]? = some d) (ho : d.closed = false) :
    execEof inst s = .next (s.setDfr inst { d with buf := [], esc := .normal, closed := true }) := by
  simp [execEof, withInst_some hd, ho]

theorem execEof_closed {inst : Nat} {s : State} {d : Dfr} (hd : s.dfr[inst]? = some d) (hc : d.closed = true) :
    execEof inst s = .fault .stuckClosed := by
  simp [execEof, withInst_some hd, hc]

theorem execPop_nil {inst : Nat} {s : State} {d : Dfr} (hd : s.dfr[inst]? = some d) (hq : d.q = []) :
    execPop inst s = .fault (if d.closed then .stuckClosedEmpty else .holdQueueEmpty) := by
  rw [execPop, withInst_some hd, hq]
  exact (apply_ite Host.Outcome.fault _ _ _).symm

theorem execStat_some {inst : Nat} {s : State} {d : Dfr} (hd : s.dfr[inst]? = some d) :
    execStat inst s = .next (s.reply (.status (statusOf d))) :=
  withInst_some hd _

theorem execRst_some {inst : Nat} {s : State} {d : Dfr} (hd : s.dfr[inst]? = some d) :
    execRst inst s = .next (s.setDfr inst Dfr.reset) :=
  withInst_some hd _

/-- Settles O29: EOF and RXB ask whether the instance is closed; POP, STAT and RST do not. -/
theorem eofClosesTheInstance : Obligations.EofClosesTheInstance := by
  intro s i d hd
  refine ⟨execEof_open hd, fun hc => ⟨execEof_closed hd hc, fun b => execRxb_of_rxFault hd (.closed hc), fun hq => ?_,
    ⟨_, execStat_some hd⟩, ⟨_, execRst_some hd⟩⟩⟩
  obtain ⟨f, rest, hq⟩ := List.exists_cons_of_ne_nil hq
  exact ⟨_, execPop_cons hd hq⟩

/-- Settles O30: the queue has a head or is empty, and only then does it matter whether the instance is closed. -/
theorem popTakesTheOldestFrame : Obligations.PopTakesTheOldestFrame := by
  refine ⟨fun s i => exec_badInst rfl, fun s i d hd => ⟨fun f rest => execPop_cons hd, fun hq ho => ?_, fun hq hc => ?_⟩⟩
  · exact (execPop_nil hd hq).trans (by rw [ho]; rfl)
  · exact (execPop_nil hd hq).trans (by rw [hc]; rfl)

/-- Settles O31: the reply is the view of the instance's record. -/
theorem statReturnsTheView : Obligations.StatReturnsTheView :=
  ⟨fun _ _ => exec_badInst rfl, fun _ _ _ => execStat_some⟩

/-- Settles O32: the second reset writes the record that the first one wrote. -/
theorem rstResetsItsInstance : Obligations.RstResetsItsInstance := by
  intro s i d hd
  have htwice : execRst i (s.setDfr i Dfr.reset) = .next (s.setDfr i Dfr.reset) := by
    rw [execRst_some (State.getElem?_setDfr hd _), State.setDfr_setDfr]
  exact ⟨s.setDfr i Dfr.reset, rfl, execRst_some hd, htwice, fun j hj => State.getElem?_setDfr_ne hj _⟩

/-! ### Laws of the deframer (R102, R103, R109) -/

/-- A run goes on from where its first part ended, whatever the state and the bounds. -/
theorem rxs_append {inst : Nat} {xs ys : Bytes} {s t : State} (h : rxs inst xs s = .next t) :
    rxs inst (xs ++ ys) s = rxs inst ys t := by
  induction xs generalizing s with
  | nil => cases h; rfl
  | cons b bs ih =>
    rw [rxs] at h
    rw [List.cons_append, rxs]
    cases hb : exec (.rxb inst b) s with
    | next u => rw [hb] at h; exact ih h
    | fault f => rw [hb] at h; cases h
    | refused r => rw [hb] at h; cases h

/-- Settles O33: the first chunk is accepted, and the second goes on from its end. -/
theorem chunkingDoesNotMatter : Obligations.ChunkingDoesNotMatter := by
  intro s i d h
  refine ⟨fun xs => ⟨_, rxs_unbounded h xs⟩, fun xs ys => ?_⟩
  rw [rxs_append (rxs_unbounded h xs), rxs_unbounded h xs]

/-- A DELIMITER leaves every open instance in Normal with an empty buffer: in Normal it completes the frame in progress, in
Escaped it is a violation that drops it. -/
theorem nextDfr_delimiter (d : Dfr) :
    nextDfr d 0xC0 = { d with
      esc := .normal, buf := [], q := d.q ++ if d.esc = .normal ∧ d.buf ≠ [] then [d.buf] else [] } := by
  obtain ⟨esc, buf, q, closed⟩ := d
  cases esc with
  | normal =>
    simp only [nextDfr, rxClass_normal_delimiter]
    split_ifs <;> simp_all
  | escaped => simp [nextDfr, rxClass_violation]

/-- A byte in Normal other than DELIMITER and ESCAPE is appended. -/
theorem nextDfr_data {d : Dfr} {b : Byte} (he : d.esc = .normal) (hC0 : b ≠ 0xC0) (hDB : b ≠ 0xDB) :
    nextDfr d b = { d with buf := d.buf ++ [b] } := by
  rw [nextDfr, he, rxClass_data hDB hC0]

/-- Settles O34: after the delimiter the record is the reset record with the queued frames in front. -/
theorem noDriftAfterDelimiter : Obligations.NoDriftAfterDelimiter := by
  intro s i d h he
  have hu : OpenUnbounded (s.setDfr i (nextDfr d 0xC0)) i (nextDfr d 0xC0) := h.setDfr (nextDfr_closed d _)
  have hreset : OpenUnbounded ((s.setDfr i (nextDfr d 0xC0)).setDfr i Dfr.reset) i Dfr.reset := hu.setDfr hu.2.1.symm
  have hd' : nextDfr d 0xC0 = { Dfr.reset with q := (nextDfr d 0xC0).q ++ Dfr.reset.q } := by
    rw [nextDfr_delimiter]
    simp [Dfr.reset, h.2.1]
  refine ⟨_, execRxb_unbounded h _, _, hu.1, by rw [nextDfr_delimiter], by rw [nextDfr_delimiter], fun xs => ?_⟩
  refine ⟨_, _, xs.foldl nextDfr Dfr.reset, rxs_unbounded hu xs, rxs_unbounded hreset xs,
    State.getElem?_setDfr hreset.1 _, ?_⟩
  rw [← foldl_nextDfr_queue, ← hd']
  rfl

/-- The bytes of a wire frame, received on any open instance: the opening delimiter ends what was in progress, the type byte and
the body collect in the buffer, and the closing delimiter queues them. -/
theorem foldl_nextDfr_wireFrame {k : Byte} (hC0 : k ≠ 0xC0) (hDB : k ≠ 0xDB) (d : Dfr) (body : Bytes) :
    (wireFrame k body).foldl nextDfr d = { d with
      esc := .normal, buf := []
      q := d.q ++ (if d.esc = .normal ∧ d.buf ≠ [] then [d.buf] else []) ++ [k :: body] } := by
  simp only [wireFrame, List.foldl_append, List.foldl_cons, List.foldl_nil]
  rw [nextDfr_delimiter d, nextDfr_data rfl hC0 hDB, foldl_nextDfr_escape rfl, nextDfr_delimiter]
  simp

theorem portOf_eq (t : Byte) : portOf t = (t >>> 4).setWidth 4 := by
  revert t
  decide

theorem commandOf_eq (t : Byte) : commandOf t = t.setWidth 4 := by
  revert t
  decide

/-- Settles O35: the wire bytes are `wireFrame`'s, and SPLIT takes the frame apart. -/
theorem deframeRecoversTheFrame : Obligations.DeframeRecoversTheFrame := by
  intro s i d k body h hC0 hDB
  refine ⟨wireFrame k body, fun _ => rfl, ?_, fun u => ?_⟩
  · rw [rxs_unbounded h, foldl_nextDfr_wireFrame hC0 hDB]
    rfl
  · rw [← portOf_eq, ← commandOf_eq]
    rfl

/-! ### The encoder (R104 to R107) -/

/-- Escaping is byte by byte. -/
theorem escape_eq_flatten (xs : Bytes) : escape xs = (xs.map escapeByte).flatten := by
  induction xs with
  | nil => rfl
  | cons b bs ih => rw [escape, ih, List.map_cons, List.flatten_cons]

/-- A byte goes on the wire as itself, or as an ESCAPE and the byte that says what it replaces. -/
theorem escapeByte_cases (b : Byte) :
    (b ≠ 0xDB ∧ escapeByte b = [b]) ∨ ∃ c : Byte, (c = 0xDC ∨ c = 0xDD) ∧ escapeByte b = [0xDB, c] := by
  unfold escapeByte
  split_ifs with hC0 hDB
  · exact .inr ⟨0xDC, .inl rfl, rfl⟩
  · exact .inr ⟨0xDD, .inr rfl, rfl⟩
  · exact .inl ⟨hDB, rfl⟩

/-- Every ESCAPE on the wire stands before TRANS_DELIMITER or TRANS_ESCAPE. -/
theorem escape_getElem?_succ (xs : Bytes) (k : Nat) (h : (escape xs)[k]? = some 0xDB) :
    (escape xs)[k + 1]? = some 0xDC ∨ (escape xs)[k + 1]? = some 0xDD := by
  induction xs generalizing k with
  | nil => cases h
  | cons b bs ih =>
    obtain ⟨hb, heq⟩ | ⟨c, hc, heq⟩ := escapeByte_cases b <;> rw [escape, heq] at h ⊢
    · match k with
      | 0 => exact absurd (Option.some.inj h) hb
      | k + 1 => exact ih k h
    · match k with
      | 0 => exact hc.imp (congrArg some) (congrArg some)
      | 1 =>
        obtain rfl : c = 0xDB := Option.some.inj h
        exact absurd hc (by decide)
      | k + 2 => exact ih k h

/-- Settles O37: the output is `escape`'s. -/
theorem escEscapesEveryByte : Obligations.EscEscapesEveryByte := by
  intro xs
  exact ⟨escape xs, fun _ => rfl, escape_eq_flatten xs, delimiter_not_mem_escape xs, escape_length xs,
    escape_getElem?_succ xs⟩

/-- Settles O38: the escaped body holds no delimiter, so the two at the ends count, and the type byte if it is one. -/
theorem encBuildsTheWireFrame : Obligations.EncBuildsTheWireFrame := by
  intro k body
  refine ⟨escape body, fun _ => rfl, fun _ => rfl, ?_⟩
  have hbody : (escape body).count 0xC0 = 0 := List.count_eq_zero.mpr (delimiter_not_mem_escape body)
  rw [List.count_append, List.count_append, hbody, List.count_cons_self]
  by_cases hk : k = 0xC0
  · subst hk
    rfl
  · rw [List.count_cons_of_ne hk, if_neg hk]
    rfl

/-- The type byte has the port above the command (R60). -/
theorem packType_toNat {port command : Nat} (hp : port ≤ 15) (hc : command ≤ 15) :
    (packType port command).toNat = 16 * port + command := by
  have key : ∀ (p c : Fin 16), (packType p c).toNat = 16 * p + c := by decide
  exact key ⟨port, by omega⟩ ⟨command, by omega⟩

/-- Settles O39: within the nibbles the type byte is packed, and above them TYPB's own check refuses. -/
theorem typbComposesTheTypeByte : Obligations.TypbComposesTheTypeByte := by
  intro port command
  refine ⟨fun hp hc => ⟨packType port command, packType_toNat hp hc, fun s => ?_⟩, fun h s => if_pos h⟩
  exact if_neg (by omega)

theorem portOf_toNat (t : Byte) : (portOf t).toNat = t.toNat / 16 := by
  revert t
  decide

theorem commandOf_toNat (t : Byte) : (commandOf t).toNat = t.toNat % 16 := by
  revert t
  decide

/-- Settles O40: the record holds the first byte, its two nibbles and the rest. -/
theorem splitStripsTheTypeByte : Obligations.SplitStripsTheTypeByte := by
  refine ⟨fun _ => rfl, fun k body => ?_⟩
  exact ⟨{ type := k, port := portOf k, command := commandOf k, body := body }, rfl, portOf_toNat k, commandOf_toNat k, rfl,
    fun _ => rfl⟩

end Sys2Proof.Machine

/-! ### The header decoder unit (43_header_decoder.md) -/

namespace Sys2Proof.Machine

/-! #### The control byte and the protocol ID (R115, R121) -/

theorem and_one_eq_zero_iff (c : Byte) : c &&& 0x01 = 0x00 ↔ c.toNat % 2 = 0 := by
  revert c
  decide

theorem and_three_eq_one_iff (c : Byte) : c &&& 0x03 = 0x01 ↔ c.toNat % 4 = 1 := by
  revert c
  decide

/-- Bit 0 clear is an I frame. -/
theorem classify_of_even {c : Byte} (h : c.toNat % 2 = 0) : classify c = .i (nsOf c) (pfOf c) (nrOf c) :=
  if_pos ((and_one_eq_zero_iff c).mpr h)

/-- Bits 1:0 equal to 01 are an S frame. -/
theorem classify_of_mod_four_one {c : Byte} (h : c.toNat % 4 = 1) : classify c = .s (nrOf c) := by
  rw [classify, if_neg ((and_one_eq_zero_iff c).not.mpr (by omega)), if_pos ((and_three_eq_one_iff c).mpr h)]

/-- Bits 1:0 equal to 11 are a U frame, looked up without bit 4. -/
theorem classify_of_mod_four_three {c : Byte} (h : c.toNat % 4 = 3) : classify c = .u (usub (c &&& 0xEF)) := by
  rw [classify, if_neg ((and_one_eq_zero_iff c).not.mpr (by omega)), if_neg ((and_three_eq_one_iff c).not.mpr (by omega))]

theorem nsOf_eq (c : Byte) : nsOf c = (c >>> 1).setWidth 3 := by
  revert c
  decide

theorem pfOf_eq (c : Byte) : pfOf c = (c >>> 4).setWidth 1 := by
  revert c
  decide

theorem nrOf_eq (c : Byte) : nrOf c = (c >>> 5).setWidth 3 := by
  revert c
  decide

/-- The U rows of R64: a lookup key and its subtype. -/
def usubTable : List (Byte × USub) :=
  [(0x6F, .sabme), (0x2F, .sabm), (0x43, .disc), (0x0F, .dm), (0x63, .ua), (0x87, .frmr), (0x03, .ui), (0xAF, .xid),
    (0xE3, .test)]

theorem usub_eq_lookup (key : Byte) : usub key = (usubTable.lookup key).getD .unknown := by
  revert key
  decide

/-- Settles O44: bits 1:0 select the format, and the fields are shifted out of the byte. -/
theorem cdecClassifiesEveryByte : Obligations.CdecClassifiesEveryByte := by
  refine fun c s => ⟨classify c, rfl, fun h => ?_, fun h => ?_, fun h => ?_⟩
  · rw [classify_of_even h, nsOf_eq, pfOf_eq, nrOf_eq]
  · rw [classify_of_mod_four_one h, nrOf_eq]
  · exact (classify_of_mod_four_three h).trans (congrArg FrameType.u (usub_eq_lookup _))

/-- The named rows of R65: a protocol-ID byte and its kind. -/
def pidTable : List (Byte × PidKind) :=
  [(0x01, .iso8208), (0x06, .compressedTcpip), (0x07, .uncompressedTcpip), (0x08, .segmentationFragment), (0xC3, .texnet),
    (0xC4, .linkQuality), (0xCA, .appletalk), (0xCC, .arpaIp), (0xCD, .arpaArp), (0xCF, .netrom), (0xF0, .noLayer3),
    (0xFF, .escape)]

theorem pidKindOf_eq_lookup (p : Byte) : pidKindOf p = (pidTable.lookup p).getD .unknown := by
  revert p
  decide

theorem exec_pdec (p : Byte) (s : State) : exec (.pdec p) s = .next (s.reply (.pidKind (pidKindOf p))) := rfl

/-- Settles O45: the reply is the kind that the table's first match gives. -/
theorem pdecMapsEveryByte : Obligations.PdecMapsEveryByte := by
  intro p s
  rw [exec_pdec, pidKindOf_eq_lookup]
  rfl

/-- The frames that carry a protocol ID are the I frames and the UI frames (R120). -/
theorem hasPid_classify_iff (c : Byte) :
    hasPid (classify c) = true ↔ c.toNat % 2 = 0 ∨ classify c = .u .ui := by
  unfold classify
  split_ifs with h0 h1 <;> rw [and_one_eq_zero_iff] at h0 <;> simp [hasPid, h0]

/-! #### The header around the walk (R111, R114, R120) -/

/-- The header that HDEC makes of the walk's chain, of its completeness and of the bytes the walk left. -/
inductive HeaderOf (chain : List ChainEntry) : Bool → Bytes → Header → Prop where
  | incomplete {left : Bytes} : HeaderOf chain false left
      { chain := chain, complete := false, control := none, ftype := none, pid := none, payload := left }
  | bare : HeaderOf chain true []
      { chain := chain, complete := true, control := none, ftype := none, pid := none, payload := [] }
  | withPid {c p : Byte} {payload : Bytes} : hasPid (classify c) = true → HeaderOf chain true (c :: p :: payload)
      { chain := chain, complete := true, control := some c, ftype := some (classify c),
        pid := some { code := p, kind := pidKindOf p }, payload := payload }
  | withoutPid {c : Byte} {payload : Bytes} : (hasPid (classify c) = true → payload = []) →
      HeaderOf chain true (c :: payload)
      { chain := chain, complete := true, control := some c, ftype := some (classify c), pid := none, payload := payload }

theorem exec_hdec (body : Bytes) (s : State) :
    exec (.hdec body) s = .next (s.reply (.header (decodeHeader body))) := rfl

/-- All that HDEC can make of a body whose walk is known. -/
theorem headerOf_decodeHeader {body left : Bytes} {chain : List ChainEntry} {complete : Bool}
    (hw : walk 0 body = (chain, complete, left)) : HeaderOf chain complete left (decodeHeader body) := by
  unfold decodeHeader
  rw [hw]
  match complete, left with
  | false, left => exact .incomplete
  | true, [] => exact .bare
  | true, c :: rest =>
    cases hp : hasPid (classify c) with
    | false =>
      simp only [hp]
      exact .withoutPid (by simp [hp])
    | true =>
      simp only [hp]
      cases rest with
      | nil => exact .withoutPid fun _ => rfl
      | cons p payload => exact .withPid hp

namespace HeaderOf

variable {chain : List ChainEntry} {complete : Bool} {left : Bytes} {h : Header}

theorem chain_eq (ho : HeaderOf chain complete left h) : h.chain = chain := by
  cases ho <;> rfl

theorem complete_eq (ho : HeaderOf chain complete left h) : h.complete = complete := by
  cases ho <;> rfl

/-- A frame type stands in the header exactly with its control byte. -/
theorem ftype_eq (ho : HeaderOf chain complete left h) : h.ftype = h.control.map classify := by
  cases ho <;> rfl

/-- The control byte is the byte behind a complete chain, if there is one. -/
theorem control_eq_head? (ho : HeaderOf chain true left h) : h.control = left.head? := by
  cases ho <;> rfl

/-- The bytes that the walk left are the control byte, the protocol ID and the payload. -/
theorem bytes_eq (ho : HeaderOf chain complete left h) :
    h.control.toList ++ h.pid.toList.map Pid.code ++ h.payload = left := by
  cases ho <;> rfl

theorem eq_of_incomplete (ho : HeaderOf chain false left h) :
    h = { chain := chain, complete := false, control := none, ftype := none, pid := none, payload := left } := by
  cases ho
  rfl

theorem eq_of_bare (ho : HeaderOf chain true [] h) :
    h = { chain := chain, complete := true, control := none, ftype := none, pid := none, payload := [] } := by
  cases ho
  rfl

/-- A frame that carries a protocol ID has it in the next byte. -/
theorem eq_of_hasPid {c p : Byte} {payload : Bytes} (hp : hasPid (classify c) = true)
    (ho : HeaderOf chain true (c :: p :: payload) h) :
    h =
      { chain := chain, complete := true, control := some c, ftype := some (classify c),
        pid := some { code := p, kind := pidKindOf p }, payload := payload } := by
  cases ho with
  | withPid _ => rfl
  | withoutPid hno => cases hno hp

/-- A frame that carries no protocol ID, or has no byte left for one, has none. -/
theorem eq_of_noPid {c : Byte} {payload : Bytes} (hp : hasPid (classify c) = true → payload = [])
    (ho : HeaderOf chain true (c :: payload) h) :
    h =
      { chain := chain, complete := true, control := some c, ftype := some (classify c), pid := none,
        payload := payload } := by
  cases ho with
  | withPid hyes => cases hp hyes
  | withoutPid _ => rfl

end HeaderOf

/-! #### Every byte once (R123 to R125, R127) -/

/-- The walk takes seven bytes for every entry from the front and leaves the rest. -/
theorem walk_bytes (n : Nat) (xs : Bytes) :
    ∃ taken : Bytes, taken ++ (walk n xs).2.2 = xs ∧ taken.length = 7 * (walk n xs).1.length := by
  fun_induction walk n xs with
  | case1 n a0 a1 a2 a3 a4 a5 a6 rest entry hext => exact ⟨[a0, a1, a2, a3, a4, a5, a6], rfl, rfl⟩
  | case2 n a0 a1 a2 a3 a4 a5 a6 rest entry hext chain complete left hw ih =>
    obtain ⟨taken, hbytes, hlen⟩ := ih
    rw [hw] at hbytes hlen
    exact ⟨[a0, a1, a2, a3, a4, a5, a6] ++ taken, by simpa using hbytes, by simp [hlen]; omega⟩
  | case3 n xs hshort => exact ⟨[], rfl, rfl⟩

/-- A body is seven bytes for every entry, the control byte, the protocol ID and the payload, in that order. -/
theorem decodeHeader_bytes (body : Bytes) : ∃ groups : Bytes, groups.length = 7 * (decodeHeader body).chain.length ∧
    body = groups ++ ((decodeHeader body).control.toList ++ (decodeHeader body).pid.toList.map Pid.code ++
      (decodeHeader body).payload) := by
  have ho := headerOf_decodeHeader (body := body) rfl
  obtain ⟨groups, hbytes, hlen⟩ := walk_bytes 0 body
  exact ⟨groups, by rw [ho.chain_eq, hlen], by rw [ho.bytes_eq, hbytes]⟩

/-- Settles O48: the body is the concatenation of the header's parts, the payload being the last of them. -/
theorem hdecAccountsForEveryByte : Obligations.HdecAccountsForEveryByte := by
  intro body
  have ho := headerOf_decodeHeader (body := body) rfl
  obtain ⟨groups, hgroups, hbody⟩ := decodeHeader_bytes body
  have hlen := congrArg List.length hbody
  simp only [List.length_append, List.length_map] at hlen
  have hsuffix : (decodeHeader body).payload <:+ body := by
    rw [← List.append_assoc] at hbody
    exact ⟨_, hbody.symm⟩
  refine ⟨decodeHeader body, fun _ => rfl, by omega, List.suffix_iff_eq_drop.mp hsuffix, by omega, ?_, fun hc => ?_⟩
  · rw [ho.ftype_eq, Option.map_eq_none_iff]
  · rw [← ho.complete_eq, hc] at ho
    rw [ho.eq_of_incomplete]
    exact ⟨rfl, rfl⟩

/-! #### The walk over whole groups (R112, R113, R129) -/

/-- Groups up to the first whose extension flag is set are a complete chain. -/
theorem walk_completeChain {gs : List Bytes} {g : Bytes} (h : CompleteChain gs g) (tail : Bytes) :
    walk 0 (gs.flatten ++ g ++ tail) = (entriesFrom 0 (gs ++ [g]), true, tail) := by
  rw [List.append_assoc, walk_groups h.1, walk_group_true h.2, entriesFrom_append]

/-- Groups with the flag clear, and too few bytes behind them for another, are an incomplete chain. -/
theorem walk_incompleteChain {gs : List Bytes} {tail : Bytes} (h : ∀ a ∈ gs, IsGroup false a) (ht : tail.length < 7) :
    walk 0 (gs.flatten ++ tail) = (entriesFrom 0 gs, false, tail) := by
  rw [walk_groups h, walk_short ht, List.append_nil]

theorem roleOf_eq (n : Nat) :
    roleOf n = if n = 0 then .destination else if n = 1 then .source else .via (n - 1) := by
  match n with
  | 0 => rfl
  | 1 => rfl
  | n + 2 => simp [roleOf]

/-- ADEC of a group gives the record that the walk gives it. -/
theorem exec_adec_group {ext : Bool} {a : Bytes} (h : IsGroup ext a) (s : State) :
    exec (.adec a) s = .next (s.reply (.addr (decodeGroup a))) := by
  obtain ⟨a0, a1, a2, a3, a4, a5, a6, rfl, -⟩ := isGroup_cases h
  rfl

/-- The entry of a group has the role of its place and ADEC's record. -/
theorem entriesFrom_role_adec {gs : List Bytes} (h : ∀ a ∈ gs, ∃ ext, IsGroup ext a) {n : Nat} {a : Bytes}
    (ha : gs[n]? = some a) : ∃ e, (entriesFrom 0 gs)[n]? = some e ∧
      e.role = (if n = 0 then .destination else if n = 1 then .source else .via (n - 1)) ∧
      ∀ s, exec (.adec a) s = .next { s with results := s.results ++ [.addr e.addr] } := by
  obtain ⟨ext, hg⟩ := h a (List.mem_of_getElem? ha)
  exact ⟨_, getElem?_entriesFrom ha, by rw [Nat.zero_add, roleOf_eq], exec_adec_group hg⟩

/-- Settles O49: the walk's entries are those of the groups, whether the chain ends or the bytes do. -/
theorem walkDecodesEveryGroup : Obligations.WalkDecodesEveryGroup := by
  refine ⟨fun gs g tail hc => ?_, fun gs tail hgs ht => ?_⟩
  · have ho := headerOf_decodeHeader (walk_completeChain hc tail)
    have hgroups : ∀ a ∈ gs ++ [g], ∃ ext, IsGroup ext a := by
      intro a ha
      rcases List.mem_append.mp ha with ha | ha
      · exact ⟨false, hc.1 a ha⟩
      · rw [List.mem_singleton.mp ha]
        exact ⟨true, hc.2⟩
    refine ⟨_, fun _ => rfl, ho.complete_eq, ?_, ?_⟩ <;> rw [ho.chain_eq]
    · rw [entriesFrom_length, List.length_append, List.length_singleton]
    · exact fun n a ha => entriesFrom_role_adec hgroups ha
  · have ho := headerOf_decodeHeader (walk_incompleteChain hgs ht)
    refine ⟨_, fun _ => rfl, ?_⟩
    rw [ho.eq_of_incomplete]
    exact ⟨rfl, rfl, rfl, rfl, rfl, entriesFrom_length 0 gs,
      fun n a ha => entriesFrom_role_adec (fun a ha => ⟨false, hgs a ha⟩) ha⟩

/-- Settles O50: what a complete chain leaves is empty or begins with the control byte, and the byte behind that is the
protocol ID exactly where the frame type has one. -/
theorem controlAndPidPresence : Obligations.ControlAndPidPresence := by
  intro gs g hc
  refine ⟨⟨decodeHeader (gs.flatten ++ g), fun _ => rfl, ?_⟩, fun c rest => ?_⟩
  · have hw := walk_completeChain hc []
    rw [List.append_nil] at hw
    rw [(headerOf_decodeHeader hw).eq_of_bare]
    exact ⟨rfl, rfl, rfl, rfl, rfl⟩
  · have ho := headerOf_decodeHeader (walk_completeChain hc (c :: rest))
    refine ⟨_, classify c, fun _ => rfl, fun _ => rfl, ho.complete_eq, ho.control_eq_head?, ?_, ?_⟩
    · rw [ho.ftype_eq, ho.control_eq_head?]
      rfl
    rw [← hasPid_classify_iff]
    refine ⟨fun hp => ⟨fun hrest => ?_, fun p ps hrest => ?_⟩, fun hp => ?_⟩
    · rw [ho.eq_of_noPid fun _ => hrest]
      exact ⟨rfl, hrest⟩
    · subst hrest
      rw [ho.eq_of_hasPid hp]
      exact ⟨pidKindOf p, rfl, rfl, exec_pdec p⟩
    · rw [ho.eq_of_noPid fun h => absurd h hp]
      exact ⟨rfl, rfl⟩

theorem completeChain_length {gs : List Bytes} {g : Bytes} (h : CompleteChain gs g) :
    (gs.flatten ++ g).length = 7 * (gs.length + 1) := by
  obtain ⟨taken, hbytes, hlen⟩ := walk_bytes 0 (gs.flatten ++ g ++ [])
  rw [walk_completeChain h] at hbytes hlen
  rw [← List.append_cancel_right hbytes, hlen, entriesFrom_length, List.length_append, List.length_singleton]

/-- HDEC of a complete chain: its entries, and as the control byte the one behind its groups, if there is one. -/
theorem exec_hdec_completeChain {gs : List Bytes} {g : Bytes} (h : CompleteChain gs g) (tail : Bytes) {body : Bytes}
    (hbody : gs.flatten ++ g ++ tail = body) : ∃ hd : Header,
      (∀ s, exec (.hdec body) s = .next { s with results := s.results ++ [.header hd] }) ∧
      hd.chain.map (fun e => e.role) = (entriesFrom 0 (gs ++ [g])).map (fun e => e.role) ∧ hd.complete = true ∧
      hd.control = body[7 * (gs.length + 1)]? := by
  have ho := headerOf_decodeHeader (walk_completeChain h tail)
  subst hbody
  refine ⟨_, exec_hdec _, by rw [ho.chain_eq], ho.complete_eq, ?_⟩
  rw [ho.control_eq_head?, ← completeChain_length h, List.getElem?_append_right le_rfl, Nat.sub_self,
    List.head?_eq_getElem?]

/-- Settles O51: both are complete chains, of two and of three groups. -/
theorem chainTermination : Obligations.ChainTermination :=
  ⟨fun a _ rest ha hb => exec_hdec_completeChain (gs := [a]) ⟨by simpa using ha, hb⟩ rest (by simp),
    fun a b _ rest ha hb hc => exec_hdec_completeChain (gs := [a, b]) ⟨by simp [ha, hb], hc⟩ rest (by simp)⟩

/-! #### Decoding a built body (R130) -/

/-- The record of six characters and an SSID byte in one group. -/
theorem decodeGroup_append {chars : Bytes} (h : chars.length = 6) (c6 : Byte) :
    decodeGroup (chars ++ [c6]) = decodeEntry chars c6 := by
  match chars, h with
  | [_, _, _, _, _, _], _ => rfl

/-- Six characters and an SSID byte are a group, with the byte's extension flag. -/
theorem isGroup_append {chars : Bytes} (h : chars.length = 6) (c6 : Byte) : IsGroup (c6.getLsbD 0) (chars ++ [c6]) :=
  ⟨by rw [List.length_append, h]; rfl, c6, by rw [← h, List.getElem?_concat_length], rfl⟩

/-- On a call name and an SSID of R89, the address encoder builds a group with the given extension flag, and the walk reads the
name and the SSID back. -/
theorem exists_encodeAddr_group {name : Bytes} {ssid hi3 ext : Nat} (hname : CallName name) (hs : ssid ≤ 15) (hh : hi3 ≤ 7)
    (he : ext ≤ 1) (m : ClampMax) : ∃ g, encodeAddr m name ssid hi3 ext = .ok g ∧ IsGroup (ext == 1) g ∧
      (decodeGroup g).name = name ∧ (decodeGroup g).ssid.toNat = ssid := by
  obtain ⟨-, hl, halnum⟩ := hname
  have hclamp : (min (max (ssid : Int) 0) 15).toNat = ssid := by omega
  have hchars : ((sixChars name).map fun c : Byte => c <<< 1).length = 6 := by rw [List.length_map, sixChars_length]
  have henc := encodeAddr_ok (m := m) (ssid := ssid) (fun c hc => toNat_le_of_isAlnum (halnum c hc)) hh he
    (fun _ => by omega)
  obtain ⟨hssid, -, -, hext⟩ := packSsid_fields hh hs he
  rw [hclamp] at henc
  refine ⟨_, henc, ?_, ?_, ?_⟩
  · have hflag : (packSsid hi3 ssid ext).getLsbD 0 = (ext == 1) := by
      rw [Bool.eq_iff_iff, ← extOf_eq_one_iff, beq_iff_eq, ← BitVec.toNat_inj, hext]
      rfl
    exact hflag ▸ isGroup_append hchars _
  · rw [decodeGroup_append hchars, decodeEntry_name_of_isAlnum hl halnum]
  · rw [decodeGroup_append hchars]
    exact hssid

/-- UIB with two addresses that the encoder accepts. -/
theorem execUib_ok {srcName dstName payload dst src : Bytes} {srcSsid dstSsid padlen : Int} {s : State}
    (hdst : encodeAddr s.cfg.ssidClampMax dstName dstSsid s.cfg.dstHi3.toNat 0 = .ok dst)
    (hsrc : encodeAddr s.cfg.ssidClampMax srcName srcSsid s.cfg.srcHi3.toNat 1 = .ok src) :
    execUib srcName srcSsid dstName dstSsid payload padlen s =
      .next ((s.takeDraws (fillerCount payload padlen)).reply
        (.bytes (uiBody dst src payload (filler s.draws (fillerCount payload padlen))))) := by
  simp only [execUib, hdst, hsrc]

/-- HDEC of a body that begins with a Destination and a Source group, the latter ending the chain. -/
theorem decodeHeader_uiBody {dst src : Bytes} (hdst : IsGroup false dst) (hsrc : IsGroup true src) (payload fill : Bytes) :
    decodeHeader (uiBody dst src payload fill) =
      { chain := [⟨.destination, decodeGroup dst⟩, ⟨.source, decodeGroup src⟩], complete := true, control := some 0x03,
        ftype := some (.u .ui), pid := some ⟨0xF0, .noLayer3⟩, payload := payload ++ fill } := by
  have hchain : CompleteChain [dst] src := ⟨by simpa using hdst, hsrc⟩
  have hbody : uiBody dst src payload fill = [dst].flatten ++ src ++ 0x03 :: 0xF0 :: (payload ++ fill) := by
    simp [uiBody]
  rw [hbody]
  exact (headerOf_decodeHeader (walk_completeChain hchain _)).eq_of_hasPid rfl

/-- Settles O53: UIB's two addresses are the groups of a complete chain, behind which its constants are read back. -/
theorem decoderReadsWhatTheBuilderBuilds : Obligations.DecoderReadsWhatTheBuilderBuilds := by
  intro s sn ss dn ds payload padlen hsn hdn hss hds
  obtain ⟨dst, hdst, hdstGroup, hdstName, hdstSsid⟩ := exists_encodeAddr_group hdn hds
    (Nat.le_of_lt_succ s.cfg.dstHi3.isLt) (Nat.zero_le 1) s.cfg.ssidClampMax
  obtain ⟨src, hsrc, hsrcGroup, hsrcName, hsrcSsid⟩ := exists_encodeAddr_group hsn hss
    (Nat.le_of_lt_succ s.cfg.srcHi3.isLt) (le_refl 1) s.cfg.ssidClampMax
  refine ⟨_, filler s.draws (fillerCount payload padlen), decodeGroup dst, decodeGroup src, ?_,
    ⟨_, execUib_ok hdst hsrc, rfl⟩, fun u => ?_, hdstName, hdstSsid, hsrcName, hsrcSsid⟩
  · rw [filler_length, fillerCount]
    omega
  · exact (exec_hdec _ u).trans (by rw [decodeHeader_uiBody hdstGroup hsrcGroup]; rfl)

end Sys2Proof.Machine

/-! ### The UI frame builder unit (44_ui_frame_builder.md) -/

namespace Sys2Proof.Machine

/-! #### The two addresses of a body -/

theorem clampSsid_ne_sixteen {m : ClampMax} {ssid : Int} (h : m = .sixteen → ssid < 16) : clampSsid m ssid ≠ 16 := by
  rw [clampSsid_eq h]
  omega

/-- The address encoder returns seven bytes where none of its checks fails. -/
theorem exists_encodeAddr_seven {m : ClampMax} {name : Bytes} {ssid : Int} {hi3 ext : Nat} (hn : ∀ c ∈ name, c.toNat ≤ 127)
    (hh : hi3 ≤ 7) (he : ext ≤ 1) (hs : clampSsid m ssid ≠ 16) :
    ∃ e, encodeAddr m name ssid hi3 ext = .ok e ∧ e.length = 7 := by
  refine ⟨(sixChars name).map (fun c : Byte => c <<< 1) ++ [packSsid hi3 (clampSsid m ssid) ext], ?_, ?_⟩
  · simp [encodeAddr, isName_iff.mpr hn, hs, Nat.not_lt.mpr hh, Nat.not_lt.mpr he]
  · simp [sixChars_length]

/-- AENC returns the entry that the address encoder builds. -/
theorem execAenc_of_ok {name e : Bytes} {ssid : Int} {hi3 ext : Nat} {s : State}
    (h : encodeAddr s.cfg.ssidClampMax name ssid hi3 ext = .ok e) :
    execAenc name ssid hi3 ext s = .next (s.reply (.bytes e)) := by
  rw [execAenc, h]

/-! #### The order of UIB's checks (R131, R140) -/

section
variable {srcName dstName payload : Bytes} {srcSsid dstSsid padlen : Int} {s : State} {r : Refusal}

/-- A refused destination refuses the whole, whatever the source. -/
theorem execUib_refused_of_dst (h : encodeAddr s.cfg.ssidClampMax dstName dstSsid s.cfg.dstHi3.toNat 0 = .error r) :
    execUib srcName srcSsid dstName dstSsid payload padlen s = .refused r := by
  rw [execUib, h]

/-- Behind a destination that is encoded, a refused source refuses the whole. -/
theorem execUib_refused_of_src {dst : Bytes}
    (hdst : encodeAddr s.cfg.ssidClampMax dstName dstSsid s.cfg.dstHi3.toNat 0 = .ok dst)
    (hsrc : encodeAddr s.cfg.ssidClampMax srcName srcSsid s.cfg.srcHi3.toNat 1 = .error r) :
    execUib srcName srcSsid dstName dstSsid payload padlen s = .refused r := by
  simp only [execUib, hdst, hsrc]

end

/-- Settles O19: the first two clauses are checks of the destination's entry; in the last two that entry is encoded, and they
are the same checks of the source's. -/
theorem uibChecksDestinationFirst : Obligations.UibChecksDestinationFirst := by
  intro s sn ss dn ds payload padlen
  have hdstHi3 : s.cfg.dstHi3.toNat ≤ 7 := Nat.le_of_lt_succ s.cfg.dstHi3.isLt
  have hsrcHi3 : s.cfg.srcHi3.toNat ≤ 7 := Nat.le_of_lt_succ s.cfg.srcHi3.isLt
  refine ⟨fun hdn => execUib_refused_of_dst (encodeAddr_nameNot7Bit hdn ..), fun hdn => ⟨fun hm hds => ?_, fun hds => ?_⟩⟩
  · exact execUib_refused_of_dst (hm ▸ encodeAddr_ssidSixteen hdn hdstHi3 (Nat.zero_le 1) hds)
  · obtain ⟨dst, hdst, -⟩ := exists_encodeAddr_seven hdn hdstHi3 (Nat.zero_le 1) hds
    refine ⟨fun hsn => ?_, fun hsn hm hss => ?_⟩
    · exact execUib_refused_of_src hdst (encodeAddr_nameNot7Bit hsn ..)
    · exact execUib_refused_of_src hdst (hm ▸ encodeAddr_ssidSixteen hsn hsrcHi3 (le_refl 1) hss)

/-! #### The body (R131 to R133, R135) -/

theorem uiBody_length {dst src : Bytes} (hdst : dst.length = 7) (hsrc : src.length = 7) (payload fill : Bytes) :
    (uiBody dst src payload fill).length = 16 + payload.length + fill.length := by
  simp only [uiBody, List.length_append, List.length_cons, List.length_nil, hdst, hsrc]

theorem fillerCount_eq_max (payload : Bytes) (padlen : Int) :
    (fillerCount payload padlen : Int) = max 0 (padlen - payload.length) := by
  rw [fillerCount]
  omega

/-- Settles O52: AENC and UIB return what the address encoder builds, and the filler is as many draws as are counted. -/
theorem uibBuildsTheBody : Obligations.UibBuildsTheBody := by
  intro s sn ss dn ds payload padlen hsn hdn hclamp
  obtain ⟨dst, hdst, hdstLen⟩ := exists_encodeAddr_seven hdn (Nat.le_of_lt_succ s.cfg.dstHi3.isLt) (Nat.zero_le 1)
    (clampSsid_ne_sixteen fun hm => (hclamp hm).2)
  obtain ⟨src, hsrc, hsrcLen⟩ := exists_encodeAddr_seven hsn (Nat.le_of_lt_succ s.cfg.srcHi3.isLt) (le_refl 1)
    (clampSsid_ne_sixteen fun hm => (hclamp hm).1)
  have hfill : ((filler s.draws (fillerCount payload padlen)).length : Int) = max 0 (padlen - payload.length) := by
    rw [filler_length, fillerCount_eq_max]
  refine ⟨dst, src, _, execAenc_of_ok hdst, execAenc_of_ok hsrc, hfill, filler_range _ _, ?_, ?_⟩
  · rw [filler_length]
    exact execUib_ok hdst hsrc
  · rw [← hfill]
    exact_mod_cast uiBody_length hdstLen hsrcLen payload _

end Sys2Proof.Machine

namespace Sys2Proof.Machine

/-! ### The core never faults (R137) -/

/-- A service goes by each request that is held or stuck, so no fault of an attempt is the answer of the service. -/
theorem serve_ne_fault (s : State) (passed rs : List Request) (f : Fault) : serve s passed rs ≠ .fault f := by
  induction rs generalizing passed with
  | nil => rw [serve_nil]; nofun
  | cons r rest ih =>
    by_cases hb : passed.any (fun p => mustPrecede p r) = true
    · rw [serve_behind hb]
      exact ih _
    · rw [Bool.not_eq_true] at hb
      cases ha : attempt r.message (s.setPending (passed ++ rest)) with
      | next t => rw [serve_next hb ha]; nofun
      | refused e => rw [serve_refused hb ha]; nofun
      | fault g => rw [serve_fault hb ha]; exact ih _

/-- Settles O6: a step is a service with none gone by. -/
theorem stepNeverFaults : Obligations.StepNeverFaults :=
  fun s => serve_ne_fault s [] s.pending

end Sys2Proof.Machine

/-! ### Reset (70_reset_and_hazards.md R151, R155) -/

namespace Sys2Proof.Machine

theorem statusOf_reset : statusOf Dfr.reset = { escaped := false, bufLen := 0, qLen := 0, closed := false } := rfl

/-- STAT returns the reset view of an instance that holds the reset record. -/
theorem execStat_reset {inst : Nat} {s : State} (hd : s.dfr[inst]? = some Dfr.reset) :
    execStat inst s =
      .next (s.reply (.status { escaped := false, bufLen := 0, qLen := 0, closed := false })) := by
  rw [execStat_some hd, statusOf_reset]

/-- Settles O1: power-on and RST both write the reset record. -/
theorem resetStateOfEveryInstance : Obligations.ResetStateOfEveryInstance := by
  refine ⟨fun n cfg => ⟨rfl, rfl, fun i hi => ?_⟩, rfl, fun s i d hd => ?_⟩
  · exact execStat_reset (List.getElem?_replicate_of_lt hi)
  · have hreset : (s.setDfr i Dfr.reset).dfr[i]? = some Dfr.reset := State.getElem?_setDfr hd _
    exact ⟨s.setDfr i Dfr.reset, execRst_some hd, rfl, hreset, execStat_reset hreset⟩

/-- Under a buffer bound other than 0 the reset record has no reason to let a byte wait. -/
theorem not_rxFault_reset {cfg : Config} (h : cfg.maxFrameBytes ≠ some 0) (b : Byte) (f : Fault) :
    ¬ RxFault cfg Dfr.reset b f := by
  rintro (hclosed | ⟨-, -, -, hbuf, -⟩ | ⟨-, -, hfull⟩)
  · cases hclosed
  · exact hbuf rfl
  · obtain ⟨m, hm, hle⟩ := full_eq_true_iff.mp hfull
    exact h (hm.trans (congrArg some (Nat.le_zero.mp hle)))

/-- Under a buffer bound other than 0 an instance that holds the reset record accepts every byte. -/
theorem execRxb_reset {inst : Nat} {s : State} (hd : s.dfr[inst]? = some Dfr.reset)
    (h : s.cfg.maxFrameBytes ≠ some 0) (b : Byte) : ∃ t, execRxb inst b s = .next t := by
  obtain ⟨d', hs⟩ | ⟨f, hf⟩ := rxStep_or_rxFault (d := Dfr.reset) rfl s.cfg b
  · exact ⟨_, execRxb_of_step hd rfl hs⟩
  · exact absurd hf (not_rxFault_reset h b f)

/-! ### What a stuck byte waits for (R46, R155) -/

/-- A held or stuck answer of an operation on an instance comes from the instance's record. -/
theorem withInst_fault {inst : Nat} {s : State} {k : Dfr → Answer} {f : Fault} (h : withInst inst s k = .fault f) :
    ∃ d, s.dfr[inst]? = some d ∧ k d = .fault f := by
  cases hd : s.dfr[inst]? with
  | none => cases (withInst_none hd k).symm.trans h
  | some d => exact ⟨d, rfl, (withInst_some hd k).symm.trans h⟩

/-- A row of the RXCLASS table that waits is selected by the instance's escape state. -/
theorem rxRow_fault {c : RxClass} {inst : Nat} {b : Byte} {s : State} {f : Fault} (h : rxRow c inst b s = .fault f) :
    ∃ d, s.dfr[inst]? = some d ∧ rxClass d.esc b = c := by
  obtain ⟨d, hd, h⟩ := withInst_fault h
  split at h
  · exact ⟨d, hd, ‹_›⟩
  · cases h

/-- RXB or a row of it that waits is one byte that waits, and is that byte wherever the instance has the same escape state. -/
theorem exec_rx_fault {j : Instr} {inst : Nat} {s : State} {f : Fault} (hj : target j = some inst) (hr : isRx j = true)
    (h : exec j s = .fault f) : ∃ b d, s.dfr[inst]? = some d ∧ RxFault s.cfg d b f ∧
      ∀ (u : State) d', u.dfr[inst]? = some d' → d'.esc = d.esc → exec j u = execRxb inst b u := by
  suffices hb : ∃ b d, s.dfr[inst]? = some d ∧
      ∀ (u : State) d', u.dfr[inst]? = some d' → d'.esc = d.esc → exec j u = execRxb inst b u by
    obtain ⟨b, d, hd, hu⟩ := hb
    exact ⟨b, d, hd, (execRxb_fault_iff hd).mp (hu s d hd rfl ▸ h), hu⟩
  cases j <;> simp only [isRx, target, Option.some.injEq, reduceCtorEq, Bool.false_eq_true] at hj hr <;> subst hj
  case rxb b =>
    obtain ⟨d, hd, -⟩ := withInst_fault h
    exact ⟨b, d, hd, fun _ _ _ _ => rfl⟩
  all_goals
    obtain ⟨d, hd, hc⟩ := rxRow_fault h
    exact ⟨_, d, hd, fun u d' hd' he => rxRow_selected hd' (he ▸ hc)⟩

/-- Transport input to an instance is EOF, or RXB or a row of it. -/
theorem transportInst_eq_some_iff {j : Instr} {inst : Nat} :
    transportInst j = some inst ↔ j = .eof inst ∨ (target j = some inst ∧ isRx j = true) := by
  cases j <;> simp [transportInst, target, isRx]

theorem execEof_ne_stuckBufferFull (inst : Nat) (s : State) : execEof inst s ≠ .fault .stuckBufferFull := by
  intro h
  obtain ⟨d, -, h⟩ := withInst_fault h
  split at h <;> cases h

/-- Input that is stuck BufferFull is so wherever its instance has the same record but for the queue. -/
theorem exec_stuckBufferFull_of_queue {j : Instr} {inst : Nat} {s : State} (hj : transportInst j = some inst)
    (h : exec j s = .fault .stuckBufferFull) : ∃ d, s.dfr[inst]? = some d ∧
      ∀ (u : State) q, u.cfg = s.cfg → u.dfr[inst]? = some { d with q := q } → exec j u = .fault .stuckBufferFull := by
  obtain rfl | ⟨ht, hr⟩ := transportInst_eq_some_iff.mp hj
  · exact absurd h (execEof_ne_stuckBufferFull inst s)
  · obtain ⟨b, d, hd, hf, hu⟩ := exec_rx_fault ht hr h
    refine ⟨d, hd, fun u q hc hq => ?_⟩
    rw [hu u _ hq rfl, execRxb_fault_iff hq, hc]
    obtain ⟨ho, hfull, happends⟩ := rxFault_stuckBufferFull_iff.mp hf
    exact .bufferFull ho happends hfull

/-- An operation that is neither input to an instance nor its RST leaves the instance's record as it is, but for the queue. -/
theorem exec_keeps_record_but_queue {k : Instr} {inst : Nat} {s t : State} {d : Dfr} (hk : transportInst k ≠ some inst)
    (hrst : k ≠ .rst inst) (hd : s.dfr[inst]? = some d) (h : exec k s = .next t) :
    ∃ q, t.dfr[inst]? = some { d with q := q } := by
  by_cases hi : target k = some inst
  · obtain ⟨e, d', rs, he, hstep, rfl⟩ := exec_target_step hi h
    obtain rfl : e = d := Option.some.inj (he.symm.trans hd)
    suffices hq : ∃ q, d' = { e with q := q } by
      obtain ⟨q, rfl⟩ := hq
      exact ⟨q, State.getElem?_setDfr hd _⟩
    cases hstep with
    | byte hr => exact absurd (transportInst_eq_some_iff.mpr (.inr ⟨hi, hr⟩)) hk
    | eof => exact absurd hi hk
    | pop => exact ⟨_, rfl⟩
    | stat => exact ⟨_, rfl⟩
    | rst =>
      obtain rfl : _ = inst := Option.some.inj hi
      exact absurd rfl hrst
  · obtain ⟨e, hdfr, -⟩ := exec_next_writeTarget h
    exact ⟨d.q, by rw [hdfr, getElem?_writeTarget_ne hi, hd]⟩

/-- Nothing but input to the instance or its RST ends BufferFull. -/
theorem exec_keeps_stuckBufferFull {j k : Instr} {inst : Nat} {s t : State} {p : List Request}
    (hj : transportInst j = some inst) (hf : exec j s = .fault .stuckBufferFull) (hk : transportInst k ≠ some inst)
    (hrst : k ≠ .rst inst) (h : exec k (s.setPending p) = .next t) : exec j t = .fault .stuckBufferFull := by
  obtain ⟨d, hd, hany⟩ := exec_stuckBufferFull_of_queue hj hf
  obtain ⟨q, hq⟩ := exec_keeps_record_but_queue (s := s.setPending p) hk hrst hd h
  exact hany t q (exec_keeps_cfg_length h).1 hq

/-- Two elements of one list are the same, or one stands before the other. -/
theorem append_cons_eq_append_cons {α : Type} {xs xs' ys ys' : List α} {a a' : α}
    (h : xs ++ a :: ys = xs' ++ a' :: ys') :
    (xs = xs' ∧ a = a' ∧ ys = ys') ∨ (∃ m, xs = xs' ++ a' :: m ∧ ys' = m ++ a :: ys) ∨
      ∃ m, xs' = xs ++ a :: m ∧ ys = m ++ a' :: ys' := by
  obtain ⟨m, hm, h⟩ | ⟨m, hm, h⟩ := List.append_eq_append_iff.mp h
  · cases m <;> simp_all
  · cases m <;> simp_all

/-- While the first input to an instance waits, a step changes nothing or performs another request, and that one is no input to
the instance: no request before the first input is, and one after it would stay behind it. -/
theorem step_beside_waiting_input {s t : State} {before after : List Request} {r : Request} {j : Instr} {inst : Nat}
    {f : Fault} (hp : s.pending = before ++ r :: after) (hr : decode r.message = .ok j) (hj : transportInst j = some inst)
    (hfirst : ∀ p ∈ before, inputOf p ≠ some inst) (hf : exec j s = .fault f) (h : step s = .next t) :
    t = s ∨ ∃ b c p k, (∀ x ∈ b, x ∈ before) ∧ p ∈ before ++ after ∧ decode p.message = .ok k ∧
      transportInst k ≠ some inst ∧ exec k (s.setPending (b ++ r :: c)) = .next t := by
  obtain ⟨rfl, -⟩ | ⟨before', p, after', k, hp', hnone, hk, ht, -⟩ := serve_next_cases h
  · exact .inl rfl
  rw [List.nil_append] at hnone ht
  obtain ⟨rfl, rfl, rfl⟩ | ⟨m, rfl, rfl⟩ | ⟨m, rfl, rfl⟩ := append_cons_eq_append_cons (hp.symm.trans hp')
  · obtain rfl : k = j := Except.ok.inj (hk.symm.trans hr)
    rw [exec_setPending, hf] at ht
    cases ht
  · refine .inr ⟨before' ++ m, after, p, k, fun x hx => ?_, by simp, hk, ?_, by simpa using ht⟩
    · exact ((List.sublist_cons_self p m).append_left before').subset hx
    · exact inputOf_ok hk ▸ hfirst p (by simp)
  · refine .inr ⟨before, m ++ after', p, k, fun _ => id, by simp, hk, ?_, by simpa using ht⟩
    exact inputOf_ok hk ▸ (mustPrecede_eq_false.mp (hnone r (by simp))).2 inst ((inputOf_ok hr).trans hj)

/-- Settles O60: the reset record has room, and a step beside the stuck input performs an RST of the instance or leaves the
instance's record as it is, but for the queue. -/
theorem rstEndsTheStuckCondition : Obligations.RstEndsTheStuckCondition := by
  refine ⟨fun s i d hd hbound => ?_, fun s t before r after j i hp hr hj hfirst hf h => ?_⟩
  · have hreset : (s.setDfr i Dfr.reset).dfr[i]? = some Dfr.reset := State.getElem?_setDfr hd _
    exact ⟨_, execRst_some hd, execRxb_reset hreset hbound, ⟨_, execEof_open hreset rfl⟩, execPop_nil hreset rfl⟩
  · obtain rfl | ⟨b, c, p, k, hb, hmem, hk, hinput, ht⟩ := step_beside_waiting_input hp hr hj hfirst hf h
    · exact .inl ⟨before, after, hp, fun _ => id, hf⟩
    have hpending : t.pending = b ++ r :: c := exec_keeps_pending ht
    by_cases hrst : k = .rst i
    · subst hrst
      exact .inr ⟨p, hk, hmem, by rw [hpending]; exact ht⟩
    · exact .inl ⟨b, c, hpending, hb, exec_keeps_stuckBufferFull hj hf hinput hrst ht⟩

/-! ### The type-byte hazard (R156) -/

/-- In Normal the escaped bytes of a frame and the closing delimiter queue what the buffer then holds, if it holds any. -/
theorem foldl_nextDfr_escape_delimiter {d : Dfr} (he : d.esc = .normal) (xs : Bytes) :
    (escape xs ++ [0xC0]).foldl nextDfr d =
      { d with buf := [], q := d.q ++ if d.buf ++ xs = [] then [] else [d.buf ++ xs] } := by
  rw [List.foldl_append, foldl_nextDfr_escape he, List.foldl_cons, List.foldl_nil, nextDfr_delimiter]
  simp only [he, true_and, ne_eq, ite_not]

/-- What stands in the buffer once the wire bytes of a body byte have followed an ESCAPE: the byte itself is judged in Escaped;
or, if it is sent escaped, its ESCAPE is the violation and its second byte is plain data. -/
def afterStrayEscape (b : Byte) : Bytes :=
  if b = 0xDC then [0xC0] else if b = 0xDD then [0xDB] else if b = 0xC0 then [0xDC] else if b = 0xDB then [0xDD] else []

theorem foldl_nextDfr_escapeByte_escaped {d : Dfr} (he : d.esc = .escaped) (hbuf : d.buf = []) (b : Byte) :
    (escapeByte b).foldl nextDfr d = { d with esc := .normal, buf := afterStrayEscape b } := by
  obtain ⟨esc, buf, q, closed⟩ := d
  subst he hbuf
  unfold afterStrayEscape
  split_ifs with hDC hDD hC0 hDB
  · subst hDC; rfl
  · subst hDD; rfl
  · subst hC0; rfl
  · subst hDB; rfl
  · rw [escapeByte, if_neg hC0, if_neg hDB, List.foldl_cons, List.foldl_nil, nextDfr, rxClass_violation hDD hDC]

/-- The frames recovered from the wire bytes of a body and the closing delimiter, behind a type byte that is an ESCAPE. -/
def hazardFrames : Bytes → List Bytes
  | [] => []
  | b :: rest => if afterStrayEscape b ++ rest = [] then [] else [afterStrayEscape b ++ rest]

/-- In Escaped with an empty buffer, the closing delimiter of an empty body is itself the violation. -/
theorem foldl_nextDfr_escape_delimiter_escaped {d : Dfr} (he : d.esc = .escaped) (hbuf : d.buf = []) (body : Bytes) :
    (escape body ++ [0xC0]).foldl nextDfr d =
      { d with esc := .normal, buf := [], q := d.q ++ hazardFrames body } := by
  cases body with
  | nil =>
    rw [escape, List.nil_append, List.foldl_cons, List.foldl_nil, nextDfr_delimiter]
    simp [he, hazardFrames]
  | cons b rest =>
    rw [escape, List.append_assoc, List.foldl_append, foldl_nextDfr_escapeByte_escaped he hbuf,
      foldl_nextDfr_escape_delimiter rfl, hazardFrames]

theorem hazardFrames_cons (b : Byte) (rest : Bytes) : hazardFrames (b :: rest) =
    if b = 0xDC then [0xC0 :: rest] else if b = 0xDD then [0xDB :: rest]
    else if b = 0xC0 then [0xDC :: rest] else if b = 0xDB then [0xDD :: rest]
    else if rest = [] then [] else [rest] := by
  unfold hazardFrames afterStrayEscape
  split_ifs <;> simp_all

/-- Between frames a delimiter is idle. -/
theorem nextDfr_delimiter_idle {d : Dfr} (he : d.esc = .normal) (hbuf : d.buf = []) : nextDfr d 0xC0 = d := by
  rw [nextDfr, he, rxClass_normal_delimiter]
  exact if_pos hbuf

/-- Between frames, the opening delimiter of a wire frame is idle, and its type byte is received first. -/
theorem foldl_nextDfr_wireFrame_idle {d : Dfr} (he : d.esc = .normal) (hbuf : d.buf = []) (k : Byte) (body : Bytes) :
    (wireFrame k body).foldl nextDfr d = (escape body ++ [0xC0]).foldl nextDfr (nextDfr d k) := by
  rw [wireFrame, List.append_assoc, List.foldl_append, List.foldl_cons, List.foldl_cons, List.foldl_nil,
    nextDfr_delimiter_idle he hbuf]

/-- A wire frame whose type byte is a DELIMITER, received between frames: that delimiter is idle too. -/
theorem foldl_nextDfr_wireFrame_delimiter {d : Dfr} (he : d.esc = .normal) (hbuf : d.buf = []) (body : Bytes) :
    (wireFrame 0xC0 body).foldl nextDfr d = { d with q := d.q ++ if body = [] then [] else [body] } := by
  rw [foldl_nextDfr_wireFrame_idle he hbuf, nextDfr_delimiter_idle he hbuf, foldl_nextDfr_escape_delimiter he]
  simp [hbuf]

/-- A wire frame whose type byte is an ESCAPE, received between frames: the type byte enters Escaped. -/
theorem foldl_nextDfr_wireFrame_escape {d : Dfr} (he : d.esc = .normal) (hbuf : d.buf = []) (body : Bytes) :
    (wireFrame 0xDB body).foldl nextDfr d = { d with q := d.q ++ hazardFrames body } := by
  have hescape : nextDfr d 0xDB = { d with esc := .escaped } := by rw [nextDfr, he, rxClass_normal_escape]
  rw [foldl_nextDfr_wireFrame_idle he hbuf, hescape,
    foldl_nextDfr_escape_delimiter_escaped (d := { d with esc := .escaped }) rfl hbuf, ← he, ← hbuf]

/-- Settles O36: the wire bytes are `wireFrame`'s, and the frames that a stray ESCAPE leaves are `hazardFrames`. -/
theorem typeByteHazard : Obligations.TypeByteHazard := by
  intro s i d body h he hbuf
  refine ⟨⟨wireFrame 0xC0 body, fun _ => rfl, ?_⟩, wireFrame 0xDB body, fun _ => rfl, ?_⟩
  · rw [rxs_unbounded h, foldl_nextDfr_wireFrame_delimiter he hbuf]
    rfl
  · rw [rxs_unbounded h, foldl_nextDfr_wireFrame_escape he hbuf]
    cases body with
    | nil => rfl
    | cons b rest =>
      rw [hazardFrames_cons]
      rfl

end Sys2Proof.Machine
